-- ==== Sys2Proof/Word.lean ====
section
/-! DEFINITION. The word types of the block and the bit slices of the spec's notation (00_scope.md R8, R9). -/

namespace Sys2Proof

/-- One byte: of a received stream, of an array, or a field of an SPI header (R55). -/
abbrev Byte := BitVec 8

/-- The 32-bit command word `cmd` (R70). -/
abbrev Cmd := BitVec 32

/-- A 64-bit SPI header: the input `din` of HVAL or the output `hdr` of HENC (R51, R70). -/
abbrev Hdr := BitVec 64

/-- A 16-bit operand or length: `len`, `elen`, `idx`, `rdata` (R79, R80). -/
abbrev Half := BitVec 16

/-- A pool slot number (R7, R75). -/
abbrev Slot := BitVec 5

end Sys2Proof
end

