-- ==== Sys2Proof/Config.lean ====
section
/-! DEFINITION. The implementation parameters of 00_scope.md R6: which they are, their constraints, and the machine's own, which are opaque. -/

namespace Sys2Proof

/-- How ESC is read in RESPONSE: the parameter `ESC_IN_RESPONSE` (R6, D18). -/
inductive EscMode where
  | literal
  | dispatch
deriving DecidableEq, Repr, Inhabited

/-- The parameters of R6 that the spec does not fix, and the three it gives a default only
(`CHECK_MAGIC`, `CHECK_CKSUM`, `ESC_IN_RESPONSE`; 93_implementation_defined.md U7, U14). -/
structure Params where
  /-- `MAGIC` (D2). -/
  magic : Byte
  /-- `OP_WRITE_REQ` (D3). -/
  opWriteReq : Byte
  /-- `OP_READ_REQ` (D3). -/
  opReadReq : Byte
  /-- `OP_DATA_FROM_HOST` (D3). -/
  opDataFromHost : Byte
  /-- `OP_WRITE_RESP_OK` (D3). -/
  opWriteRespOk : Byte
  /-- `OP_READ_RESP_OK` (D3). -/
  opReadRespOk : Byte
  /-- `OP_DATA_TO_HOST` (D3). -/
  opDataToHost : Byte
  /-- `MAX_TX_LEN` (D4). -/
  maxTxLen : Nat
  /-- `MAX_RX_LEN` (D4). -/
  maxRxLen : Nat
  /-- `MORE_BYTE` (D8). -/
  moreByte : Nat
  /-- `MORE_MASK` (D8). -/
  moreMask : Byte
  /-- `CHECK_MAGIC` (D6). -/
  checkMagic : Bool
  /-- `CHECK_CKSUM` (D6). -/
  checkCksum : Bool
  /-- `LINE_MAX` (D19). -/
  lineMax : Nat
  /-- `UDP_HDR_MAX` (D26). -/
  udpHdrMax : Nat
  /-- `ESC_BUF_SIZE` (D27). -/
  escBufSize : Nat
  /-- `BOOT_MARKERS` (D13). -/
  bootMarkers : List (List Byte)
  /-- `WAKE_MARKERS` (D13). -/
  wakeMarkers : List (List Byte)
  /-- `ESC_IN_RESPONSE` (D18). -/
  escInResponse : EscMode
deriving DecidableEq, Repr, Inhabited

/-- The six `OP_*` values, which must be pairwise distinct (R6, D3). -/
abbrev Params.opCodes (p : Params) : List Byte :=
  [p.opWriteReq, p.opReadReq, p.opDataFromHost, p.opWriteRespOk, p.opReadRespOk, p.opDataToHost]

/-- The constraints R6 puts on the parameters, and the bound on the marker table of R131. A marker that is the one
byte 0x0D meets them, against R140 (i): DEDUCED, log entry 21. -/
abbrev Params.Valid (p : Params) : Prop :=
  p.opCodes.Nodup ∧
  (p.maxTxLen = 1400 ∨ p.maxTxLen = 1500) ∧
  (p.maxRxLen = 1400 ∨ p.maxRxLen = 1500) ∧
  (p.moreByte = 2 ∨ p.moreByte = 3 ∨ p.moreByte = 4) ∧
  p.moreMask ≠ 0 ∧
  (21 ≤ p.lineMax ∧ p.lineMax ≤ 65535) ∧
  2 ≤ p.udpHdrMax ∧
  (1 + p.udpHdrMax + 9999 ≤ p.escBufSize ∧ p.escBufSize ≤ 65535) ∧
  (∀ m ∈ p.bootMarkers ++ p.wakeMarkers, m ≠ [] ∧ m.length ≤ p.lineMax) ∧
  9 + p.bootMarkers.length + p.wakeMarkers.length ≤ 240

/-- The vector configuration VC of 95_test_vectors.md section 0. It stands in the tests, and as the
valid record that `Config.params` needs where `Config.raw` breaks a constraint (log entry 6). PRESUMED (what R6
calls ASSUMED): its `magic` is the spec's general-knowledge value K3 and its six `op…` bytes are K4; no source of
the spec gives them (log entry 18). -/
def Config.vectors : Params where
  magic := 0xA5
  opWriteReq := 0x01
  opReadReq := 0x02
  opDataFromHost := 0x03
  opWriteRespOk := 0x11
  opReadRespOk := 0x12
  opDataToHost := 0x15
  maxTxLen := 1400
  maxRxLen := 1400
  moreByte := 2
  moreMask := 0x01
  checkMagic := true
  checkCksum := true
  lineMax := 64
  udpHdrMax := 32
  escBufSize := 10032
  bootMarkers := []
  wakeMarkers := []
  escInResponse := .literal

/-- The machine's parameters before the constraints of R6 are imposed. No body: no proof can see a
value of it (log entry 6). -/
opaque Config.raw : Params

/-- The parameters of this machine (R6, R271): any record that meets the constraints, and none else. The
general-knowledge values of `Config.vectors` are PRESUMED, R6's ASSUMED (log entry 18). -/
def Config.params : Params :=
  if Config.raw.Valid then Config.raw else Config.vectors

/-- `POOL_SLOTS` (R6). -/
abbrev Config.poolSlots : Nat := 32

/-- `LEN_DIGITS` (R6). -/
abbrev Config.lenDigits : Nat := 4

/-- `CID_INVALID` (R6, D30). -/
abbrev Config.cidInvalid : Byte := 0xFF

end Sys2Proof
end

