-- ==== Sys2Proof/Syntax.lean ====
section
/-! DEFINITION. The commands of the block: one constructor for each row of spec/opcode_table.json (30_encoding.md R71). -/

namespace Sys2Proof

/-- The header kinds that HENC builds: `ksel` 0, 1 and 2 (R73). -/
inductive HencKind where
  | wreq
  | rreq
  | dfh
deriving DecidableEq, Repr

/-- The check sets of HVAL: `mode` 0, 1 and 2 (R74). -/
inductive HvalMode where
  | wrsp
  | rrsp
  | dth
deriving DecidableEq, Repr

/-- A command. Operands have the widths of R79; HVAL's `din` is an operand (R74). The three reserved
rows keep the whole command word they are (log entry 12). -/
inductive Instr where
  /-- NOP (R225). -/
  | nop
  /-- FEED `b` (R160). -/
  | feed (b : Byte)
  /-- HENC with `ksel = 0`, write-request (R104). -/
  | hencWreq (len : Half)
  /-- HENC with `ksel = 1`, read-request (R104). -/
  | hencRreq (len : Half)
  /-- HENC with `ksel = 2`, data-from-host (R104). -/
  | hencDfh (len : Half)
  /-- HVAL with `mode = 0`, write-response (R108). -/
  | hvalWrsp (elen : Half) (din : Hdr)
  /-- HVAL with `mode = 1`, read-response (R108). -/
  | hvalRrsp (elen : Half) (din : Hdr)
  /-- HVAL with `mode = 2`, data-to-host (R108). -/
  | hvalDth (elen : Half) (din : Hdr)
  /-- PRD `slot`, `idx` (R220). -/
  | prd (slot : Slot) (idx : Half)
  /-- PLEN `slot` (R221). -/
  | plen (slot : Slot)
  /-- ERD `idx` (R223). -/
  | erd (idx : Half)
  /-- The reserved command `op = 111`, whatever its other bits (R226). -/
  | reservedOp111 (w : Cmd)
  /-- HENC with `ksel = 3` (R91, R241). -/
  | reservedHencKsel11 (w : Cmd)
  /-- HVAL with `mode = 3` (R91, R241). -/
  | reservedHvalMode11 (w : Cmd)
deriving DecidableEq, Repr

/-- What the host drives in one step (R70): `rst`, and the command it is ignored for when 0. -/
structure Input where
  rst : Bool
  cmd : Cmd
  din : Hdr
deriving DecidableEq, Repr

/-- A line of the spec's assembler notation (R94), a pseudo-instruction of R95 included. The reserved
commands have no mnemonic. RDLINE's and RDESC's counts are those R95 takes from `rdata` and `stat`. -/
inductive AsmLine where
  | nop
  | feed (b : Byte)
  | henc (kind : HencKind) (len : Half)
  | hval (mode : HvalMode) (elen : Half) (din : Hdr)
  | prd (slot : Slot) (idx : Half)
  | plen (slot : Slot)
  | erd (idx : Half)
  | feeds (text : List Char)
  | rdline (slot : Slot) (count : Nat)
  | rdesc (count : Nat)
deriving DecidableEq, Repr

end Sys2Proof
end

