-- ==== Sys2Proof/WellFormed.lean ====
section
/-! DEFINITION. When a command is one that its encoding can hold, and when a run of inputs keeps the host's first duty (30_encoding.md R71, R91; 70_reset_and_hazards.md R273, R274). -/

namespace Sys2Proof

/-- `op = 111` (R71). -/
def isReservedOp111 (w : Cmd) : Bool :=
  w.extractLsb' 0 3 == 7#3

/-- HENC, `op = 010`, with `ksel = 3` (R73, R91). -/
def isReservedHencKsel11 (w : Cmd) : Bool :=
  w.extractLsb' 0 3 == 2#3 && w.extractLsb' 3 2 == 3#2

/-- HVAL, `op = 011`, with `mode = 3` (R74, R91). -/
def isReservedHvalMode11 (w : Cmd) : Bool :=
  w.extractLsb' 0 3 == 3#3 && w.extractLsb' 3 2 == 3#2

/-- A command whose operands its encoding holds. The widths of R79 are the operands' types, so only
the reserved rows, which keep a whole word, have something to check: the word is of the row. -/
def Instr.wf : Instr → Bool
  | .nop => true
  | .feed _ => true
  | .hencWreq _ => true
  | .hencRreq _ => true
  | .hencDfh _ => true
  | .hvalWrsp _ _ => true
  | .hvalRrsp _ _ => true
  | .hvalDth _ _ => true
  | .prd _ _ => true
  | .plen _ => true
  | .erd _ => true
  | .reservedOp111 w => isReservedOp111 w
  | .reservedHencKsel11 w => isReservedHencKsel11 w
  | .reservedHvalMode11 w => isReservedHvalMode11 w

/-- "A model's run begins with a reset step" (R273): the host's inputs of a run from power-on. -/
def runWf : List Input → Bool
  | [] => true
  | i :: _ => i.rst

end Sys2Proof
end

