-- ==== Sys2Proof/Decode.lean ====
section
/-! DEFINITION. The decoder of a command word and its `din` (30_encoding.md R71 to R79, R91), then the encoder (R96), the table's numbering of an instruction's bits, and the expansion of the assembler notation (R94, R95). -/

namespace Sys2Proof

/-- Why a command word is no command: a reserved-zero bit of R71 is 1. -/
inductive DecodeError where
  | reservedBits (mnemonic : String)
deriving DecidableEq, Repr

/-- What the decoder answers for a word. -/
inductive Decoded where
  | command (i : Instr)
  | reject (why : DecodeError)
deriving DecidableEq, Repr

/-- The command a word stands for when its reserved-zero bits are 0, and the rejection by name when not. -/
def Decoded.when (zero : Bool) (mnemonic : String) (i : Instr) : Decoded :=
  if zero then .command i else .reject (.reservedBits mnemonic)

/-- HENC's words (R73): `ksel = cmd[4:3]`, `len = cmd[31:16]`, `cmd[15:5]` zero. -/
def decodeHenc (w : Cmd) : Decoded :=
  let zero := w.extractLsb' 5 11 == 0#11
  let len : Half := w.extractLsb' 16 16
  if w.extractLsb' 3 2 = 0#2 then .when zero "HENC.WREQ" (.hencWreq len)
  else if w.extractLsb' 3 2 = 1#2 then .when zero "HENC.RREQ" (.hencRreq len)
  else if w.extractLsb' 3 2 = 2#2 then .when zero "HENC.DFH" (.hencDfh len)
  else .command (.reservedHencKsel11 w)

/-- HVAL's words (R74): `mode = cmd[4:3]`, `elen = cmd[31:16]`, `cmd[15:5]` zero. -/
def decodeHval (w : Cmd) (din : Hdr) : Decoded :=
  let zero := w.extractLsb' 5 11 == 0#11
  let elen : Half := w.extractLsb' 16 16
  if w.extractLsb' 3 2 = 0#2 then .when zero "HVAL.WRSP" (.hvalWrsp elen din)
  else if w.extractLsb' 3 2 = 1#2 then .when zero "HVAL.RRSP" (.hvalRrsp elen din)
  else if w.extractLsb' 3 2 = 2#2 then .when zero "HVAL.DTH" (.hvalDth elen din)
  else .command (.reservedHvalMode11 w)

/-- The decoder: total on every command word and `din`. `op = cmd[2:0]` selects the command (R71);
`din` is read only by HVAL (R78). -/
def decode (w : Cmd) (din : Hdr) : Decoded :=
  if w.extractLsb' 0 3 = 0#3 then .when (w.extractLsb' 3 29 == 0#29) "NOP" .nop
  else if w.extractLsb' 0 3 = 1#3 then
    .when (w.extractLsb' 3 5 == 0#5 && w.extractLsb' 16 16 == 0#16) "FEED" (.feed (w.extractLsb' 8 8))
  else if w.extractLsb' 0 3 = 2#3 then decodeHenc w
  else if w.extractLsb' 0 3 = 3#3 then decodeHval w din
  else if w.extractLsb' 0 3 = 4#3 then
    .when (w.extractLsb' 3 5 == 0#5 && w.extractLsb' 13 3 == 0#3) "PRD"
      (.prd (w.extractLsb' 8 5) (w.extractLsb' 16 16))
  else if w.extractLsb' 0 3 = 5#3 then
    .when (w.extractLsb' 3 5 == 0#5 && w.extractLsb' 13 19 == 0#19) "PLEN" (.plen (w.extractLsb' 8 5))
  else if w.extractLsb' 0 3 = 6#3 then
    .when (w.extractLsb' 3 13 == 0#13) "ERD" (.erd (w.extractLsb' 16 16))
  else .command (.reservedOp111 w)

/-- A command word from its fields: `{f31_16, f15_13, f12_8, f7_5, f4_3, op}` (R96). -/
def cmdWord (f31_16 : Half) (f15_13 : BitVec 3) (f12_8 : BitVec 5) (f7_5 : BitVec 3) (f4_3 : BitVec 2)
    (op : BitVec 3) : Cmd :=
  f31_16 ++ f15_13 ++ f12_8 ++ f7_5 ++ f4_3 ++ op

/-- The encoder: the command word of a well-formed command and the `din` presented with it, by the
table of R71. A command that does not read `din` is given a `din` of 0 (R78). -/
def encode : Instr → Cmd × Hdr
  | .nop => (cmdWord 0 0 0 0 0 0, 0)
  | .feed b => (cmdWord 0 (b.extractLsb' 5 3) (b.extractLsb' 0 5) 0 0 1, 0)
  | .hencWreq len => (cmdWord len 0 0 0 0 2, 0)
  | .hencRreq len => (cmdWord len 0 0 0 1 2, 0)
  | .hencDfh len => (cmdWord len 0 0 0 2 2, 0)
  | .hvalWrsp elen din => (cmdWord elen 0 0 0 0 3, din)
  | .hvalRrsp elen din => (cmdWord elen 0 0 0 1 3, din)
  | .hvalDth elen din => (cmdWord elen 0 0 0 2 3, din)
  | .prd slot idx => (cmdWord idx 0 slot 0 0 4, 0)
  | .plen slot => (cmdWord 0 0 slot 0 0 5, 0)
  | .erd idx => (cmdWord idx 0 0 0 0 6, 0)
  | .reservedOp111 w => (w, 0)
  | .reservedHencKsel11 w => (w, 0)
  | .reservedHvalMode11 w => (w, 0)

/-- The command word of an instruction numbered as `opcode_table.json` numbers its bits: bits 31 to 0 (log entry 11). -/
def tableCmd (nbits w : Nat) : Cmd :=
  BitVec.ofNat 32 (w % 2 ^ nbits)

/-- The `din` of an instruction so numbered: bits 95 to 32 (log entry 11). -/
def tableDin (nbits w : Nat) : Hdr :=
  BitVec.ofNat 64 (w % 2 ^ nbits / 2 ^ 32)

/-- The command the decoder reads from an instruction whose bits are `w`. -/
def decodeTableWord (nbits w : Nat) : Option Instr :=
  match decode (tableCmd nbits w) (tableDin nbits w) with
  | .command i => some i
  | .reject _ => none

/-- The bytes of FEEDS's text (R95): the escapes `\r`, `\n`, `\t` and `\e` stand for CR, LF, HT and ESC,
every other character for its ASCII byte (log entry 10). -/
def feedsBytes : List Char → List Byte
  | '\\' :: 'r' :: cs => 0x0D :: feedsBytes cs
  | '\\' :: 'n' :: cs => 0x0A :: feedsBytes cs
  | '\\' :: 't' :: cs => 0x09 :: feedsBytes cs
  | '\\' :: 'e' :: cs => 0x1B :: feedsBytes cs
  | c :: cs => BitVec.ofNat 8 c.toNat :: feedsBytes cs
  | [] => []

/-- What a line of the assembler notation stands for: one command (R94), or the expansion of a
pseudo-instruction (R95). -/
def AsmLine.expand : AsmLine → List Instr
  | .nop => [.nop]
  | .feed b => [.feed b]
  | .henc .wreq len => [.hencWreq len]
  | .henc .rreq len => [.hencRreq len]
  | .henc .dfh len => [.hencDfh len]
  | .hval .wrsp elen din => [.hvalWrsp elen din]
  | .hval .rrsp elen din => [.hvalRrsp elen din]
  | .hval .dth elen din => [.hvalDth elen din]
  | .prd slot idx => [.prd slot idx]
  | .plen slot => [.plen slot]
  | .erd idx => [.erd idx]
  | .feeds text => (feedsBytes text).map .feed
  | .rdline slot count => .plen slot :: (List.range count).map fun i => .prd slot (BitVec.ofNat 16 i)
  | .rdesc count => (List.range count).map fun i => .erd (BitVec.ofNat 16 i)

end Sys2Proof
end

