-- ==== Sys2Proof/Machine/State.lean ====
section
/-! DEFINITION. The machine's state (10_state.md), the step's outputs (30_encoding.md R80 to R83), the reasons a step can stop, and the state after reset. -/

namespace Sys2Proof.Machine

/-- An array of the block as cells (index, value), indices rising. An index that is not listed holds
no value (R22, R24, R28; log entry 8). -/
abbrev Table (α : Type) := List (Nat × α)

/-- A byte array of the block (R50): cells of the host's form, (index, byte). -/
abbrev Memory := List Host.Cell

/-- The sub-phases of BULK_DATA (R30, R41: never HDRP). -/
inductive BulkPhase where
  | cidp
  | lenp
  | payp
deriving DecidableEq, Repr

/-- The sub-phases of UDP_BULK_DATA (R30). -/
inductive UdpPhase where
  | cidp
  | hdrp
  | lenp
  | payp
deriving DecidableEq, Repr

/-- The assembler's state: `st` (R21) and `bphase` (R30) in one. Its five constructors are those of
`st`; a combination of the two that R41 rules out has no constructor (V7; log entry 9). -/
inductive Fsm where
  | start
  | response
  | escStart
  | bulkData (phase : BulkPhase)
  | udpBulkData (phase : UdpPhase)
deriving DecidableEq, Repr

/-- The values of `st` (R21). -/
inductive St where
  | start
  | response
  | escStart
  | bulkData
  | udpBulkData
deriving DecidableEq, Repr

/-- The values of `bphase` (R30). -/
inductive Bphase where
  | cidp
  | hdrp
  | lenp
  | payp
deriving DecidableEq, Repr

/-- The block state `S`: the fields of R20 and nothing else. -/
structure Block where
  /-- `st` (R21) and `bphase` (R30). -/
  fsm : Fsm
  /-- `acc` (R22). -/
  acc : Memory
  /-- `acc_len` (R22). -/
  accLen : Nat
  /-- `skip` (R23). -/
  skip : Bool
  /-- `pool`: slot, then index in the slot's line (R24). -/
  pool : Table Memory
  /-- `pool_len`: slot, then the length of its line (R24). -/
  poolLen : Table Nat
  /-- `pool_count` (R25). -/
  poolCount : Nat
  /-- `pool_ovf` (R26). -/
  poolOvf : Bool
  /-- `esc_kind` (R27). -/
  escKind : Byte
  /-- `esc_buf` (R28). -/
  escBuf : Memory
  /-- `esc_len` (R28). -/
  escLen : Nat
  /-- `esc_done` (R29). -/
  escDone : Bool
  /-- `dcount` (R31). -/
  dcount : Nat
  /-- `blen` (R32). -/
  blen : Nat
  /-- `sp_seen` (R33). -/
  spSeen : Bool
  /-- `tab_seen` (R33). -/
  tabSeen : Bool
  /-- `udp_hdr_len` (R34). -/
  udpHdrLen : Nat
  /-- `conn_cid` (R35). -/
  connCid : Byte
deriving DecidableEq, Repr

/-- The outcome tags, in the order of their codes 0 to 21 (R81). -/
inductive Tag where
  | none
  | ok
  | error
  | errSocketFailure
  | errIpConfigFail
  | invalidInput
  | invalidCid
  | disassociated
  | boot
  | disconnect
  | wake
  | unmatched
  | tcpServerConnect
  | bulkDataRx
  | udpBulkDataRx
  | escOk
  | escFail
  | inputTooLong
  | bufError
  | timeout
  | noMemory
  | transportError
deriving DecidableEq, Repr

/-- The error codes of HVAL, in the order of their numbers 0 to 5 (R83). -/
inductive HvErr where
  | none
  | badMagic
  | badCksum
  | badOp
  | zeroLen
  | badLen
deriving DecidableEq, Repr

/-- The per-step result record `out` (R80). A field that the step's command does not define holds no
value: `Option.none` (log entry 4). -/
structure Out where
  cmdErr : Bool
  tag : Option Tag
  final : Option Bool
  midx : Option Byte
  hdr : Option Hdr
  encErr : Option Bool
  hvOk : Option Bool
  hvErr : Option HvErr
  hvOp : Option Byte
  hvLen : Option Half
  hvRsv : Option (BitVec 24)
  hvMore : Option Bool
  rdata : Option Half
  rdErr : Option Bool
deriving DecidableEq, Repr

/-- The read-only status output `stat`: the record that R38 lists. DEDUCED: `pool_len`, which R38's first sentence
does not except and its list does not name, is no part of it; PLEN alone shows it (log entry 19). -/
structure Stat where
  st : St
  accLen : Nat
  skip : Bool
  poolCount : Nat
  poolOvf : Bool
  escKind : Byte
  escLen : Nat
  escDone : Bool
  bphase : Bphase
  dcount : Nat
  blen : Nat
  spSeen : Bool
  tabSeen : Bool
  udpHdrLen : Nat
  connCid : Byte
deriving DecidableEq, Repr

/-- The result of one FEED that `emit` sets (R160, R169). -/
structure Emitted where
  tag : Tag
  final : Bool
  midx : Byte
deriving DecidableEq, Repr

/-- What the classifier answers for a line (R130). -/
structure Verdict where
  tag : Tag
  midx : Byte
  cid : Option Byte
deriving DecidableEq, Repr

/-- The machine: the block, its outputs, and what the host drives it with. `out`, `inputs` and
`started` are the model's own fields (log entries 1, 3 and 4). -/
structure State where
  /-- The block state `S` (R20). -/
  block : Block
  /-- The outputs of the last step (R80). -/
  out : Out
  /-- The host's inputs that no step has taken yet, oldest first (R70). -/
  inputs : List Input
  /-- A reset step has happened (R273). -/
  started : Bool
deriving DecidableEq, Repr

/-- Why a step ends in a fault: a closed set, the one fault the spec defines (R244). -/
inductive Fault where
  /-- `fault ReadUnwritten`: PRD, PLEN or ERD of a location that holds no value (R222). `answer` is what the
  block puts out in that step: `rd_err = 1`, and no `rdata`. Raised by the three read-out meanings. Safe:
  the spec gives the read no number, and a run that makes it stops here (log entry 7). -/
  | readUnwritten (answer : Out)
deriving DecidableEq, Repr

/-- Why a step is refused: a closed set. -/
inductive Refusal where
  /-- The instruction has no meaning in the model. Raised by an arm of exec alone; no arm raises it. Safe. -/
  | notModelled (mnemonic : String)
  /-- A command before the first reset, which R273 has a model refuse. Raised by the step. Safe (log entry 3). -/
  | beforeReset
  /-- The host presents no input, so there is no step to take (R70). Raised by the step. Safe (log entry 2). -/
  | noCommand
deriving DecidableEq, Repr

/-- The outputs of a step that defines `cmd_err = 0` and nothing else (R80, R225, R270). -/
def Out.quiet : Out where
  cmdErr := false
  tag := .none
  final := .none
  midx := .none
  hdr := .none
  encErr := .none
  hvOk := .none
  hvErr := .none
  hvOp := .none
  hvLen := .none
  hvRsv := .none
  hvMore := .none
  rdata := .none
  rdErr := .none

/-- The block after reset (R40). -/
def Block.reset : Block where
  fsm := .start
  acc := []
  accLen := 0
  skip := false
  pool := []
  poolLen := []
  poolCount := 0
  poolOvf := false
  escKind := 0x00
  escBuf := []
  escLen := 0
  escDone := false
  dcount := 0
  blen := 0
  spSeen := false
  tabSeen := false
  udpHdrLen := 0
  connCid := Config.cidInvalid

/-- The machine right after a reset step that no further input follows (R40, R270). -/
def State.reset : State where
  block := Block.reset
  out := Out.quiet
  inputs := []
  started := true

end Sys2Proof.Machine
end

