-- ==== Sys2Proof/Machine/Ops.lean ====
section
/-! DEFINITION. The named operations over the arrays and fields of the block, shared by the meanings: the memory primitives of R11, the helpers of 42_assembler_fsm.md R164 to R169, `raise CmdError` (R12, R241), reset (R270), and the taking of a host input (R70, R273). -/

namespace Sys2Proof.Machine

/-! ### Arrays -/

/-- `MemRead` (R11): what an index holds, if it holds a value. -/
def Table.read {α : Type} : Table α → Nat → Option α
  | [], _ => none
  | (k, v) :: t, i => if k = i then some v else Table.read t i

/-- `MemWrite` (R11). Indices stay rising. -/
def Table.write {α : Type} : Table α → Nat → α → Table α
  | [], i, v => [(i, v)]
  | (k, u) :: t, i, v =>
    if i < k then (i, v) :: (k, u) :: t
    else if i = k then (i, v) :: t
    else (k, u) :: Table.write t i v

/-- The indices that hold a value. -/
def Table.keys {α : Type} (t : Table α) : List Nat :=
  t.map Prod.fst

/-- The one canonical form: strictly rising indices. An unlisted index reads as no value, so no listed
cell can equal what an unlisted one reads as. -/
abbrev Table.wf {α : Type} (t : Table α) : Prop :=
  (Table.keys t).Pairwise (· < ·)

/-- The canonical form of a byte array. -/
abbrev Memory.wf (m : Memory) : Prop :=
  Table.wf m

/-- `A[0 .. n)` (R9): the values below `n`, in the order of their indices. -/
def Table.upTo {α : Type} (t : Table α) (n : Nat) : List α :=
  (List.range n).filterMap (Table.read t)

/-- The cells of values written at `k`, `k + 1`, and so on: R165's copy loop into a slot that holds no value. -/
def Table.ofList {α : Type} (k : Nat) : List α → Table α
  | [] => []
  | v :: vs => (k, v) :: Table.ofList (k + 1) vs

/-- `pool[slot][idx]`, where it holds a value: `slot < pool_count` and `idx < pool_len[slot]` (R24, R220). -/
def Block.poolByte (b : Block) (slot idx : Nat) : Option Byte :=
  if slot < b.poolCount then
    match Table.read b.poolLen slot with
    | some n => if idx < n then (Table.read b.pool slot).bind fun line => Table.read line idx else none
    | none => none
  else none

/-- `pool_len[slot]`, where it holds a value: `slot < pool_count` (R24, R221). -/
def Block.poolLength (b : Block) (slot : Nat) : Option Nat :=
  if slot < b.poolCount then Table.read b.poolLen slot else none

/-- `esc_buf[idx]`, where it holds a value: `idx < esc_len` (R28, R223). -/
def Block.escByte (b : Block) (idx : Nat) : Option Byte :=
  if idx < b.escLen then Table.read b.escBuf idx else none

/-- `acc[idx]`, where it holds a value: `idx < acc_len` (R22). No command reads it (R50). -/
def Block.accByte (b : Block) (idx : Nat) : Option Byte :=
  if idx < b.accLen then Table.read b.acc idx else none

/-- The line being accumulated, `acc[0 .. acc_len)` (R22, R165). -/
def Block.line (b : Block) : List Byte :=
  Table.upTo b.acc b.accLen

/-! ### The assembler's helpers -/

/-- `emit` was not called: the defaults of R160. -/
def Emitted.nothing : Emitted where
  tag := .none
  final := false
  midx := 0xFF

/-- `emit(t, f, 0xFF)` (R169): every emission but a classification. -/
def Emitted.of (t : Tag) (f : Bool) : Emitted where
  tag := t
  final := f
  midx := 0xFF

/-- `enter_esc()` (R164). -/
def Block.enterEsc (b : Block) : Block :=
  { b with fsm := .escStart, dcount := 0, blen := 0, spSeen := false, tabSeen := false }

/-- `new_batch()` (R166): every slot holds no value from here on (R65). -/
def Block.newBatch (b : Block) : Block :=
  { b with pool := [], poolLen := [], poolCount := 0, poolOvf := false }

/-- `leave_bulk()` (R167). -/
def Block.leaveBulk (b : Block) : Block :=
  { b with fsm := .start, dcount := 0, blen := 0 }

/-- `store_esc(b)` (R168). -/
def Block.storeEsc (b : Block) (v : Byte) : Block :=
  { b with escBuf := Table.write b.escBuf b.escLen v, escLen := b.escLen + 1 }

/-- The CID byte of a new frame (R186, R192): it replaces the buffer's contents (R66). -/
def Block.storeCid (b : Block) (v : Byte) : Block :=
  { b with escBuf := Table.write [] 0 v, escLen := 1, udpHdrLen := 0, escDone := false }

/-- A header byte of a UDP frame (R193 to R195). -/
def Block.storeHdr (b : Block) (v : Byte) : Block :=
  { b.storeEsc v with udpHdrLen := b.udpHdrLen + 1 }

/-- The first byte of a line (R163): it replaces the accumulator's contents. -/
def Block.beginLine (b : Block) (v : Byte) : Block :=
  { b with acc := Table.write [] 0 v, accLen := 1 }

/-- A further byte of a line (R171). -/
def Block.appendLine (b : Block) (v : Byte) : Block :=
  { b with acc := Table.write b.acc b.accLen v, accLen := b.accLen + 1 }

/-- `acc_len <- 0` (R165, R172, R174): the accumulator holds no byte. -/
def Block.dropLine (b : Block) : Block :=
  { b with acc := [], accLen := 0 }

/-- The storing part of `finish_line()` (R165): the line goes to the next slot, or, where the pool is
full, is only marked as not stored. -/
def Block.storeLine (b : Block) : Block :=
  if b.poolCount < Config.poolSlots then
    { b with
      pool := Table.write b.pool b.poolCount (Table.ofList 0 b.line)
      poolLen := Table.write b.poolLen b.poolCount b.accLen
      poolCount := b.poolCount + 1 }
  else { b with poolOvf := true }

/-! ### Steps of the machine -/

/-- `raise CmdError` (R12, R241): `cmd_err = 1`, no other output, no field of `S` changes. -/
def State.raiseCmdError (s : State) : State :=
  { s with out := { Out.quiet with cmdErr := true } }

/-- The reset step (R270): every field of `S` at its reset value, whatever it was. -/
def State.resetStep (s : State) : State :=
  { s with block := Block.reset, out := Out.quiet, started := true }

/-- What a step finds on its inputs. -/
inductive Taken where
  /-- `rst = 1`: a reset step. -/
  | reset (rest : State)
  /-- `rst = 0`: a command word and the `din` presented with it. -/
  | command (cmd : Cmd) (din : Hdr) (rest : State)
  | refusal (r : Refusal)
deriving DecidableEq, Repr

/-- Takes the host's next input (R70). With `rst = 1`, `cmd` and `din` are ignored (R270); a command
before the first reset is refused (R273). -/
def State.takeInput (s : State) : Taken :=
  match s.inputs with
  | [] => .refusal .noCommand
  | i :: rest =>
    if i.rst then .reset { s with inputs := rest }
    else if s.started then .command i.cmd i.din { s with inputs := rest }
    else .refusal .beforeReset

end Sys2Proof.Machine
end

