-- ==== Sys2Proof/Machine/Operands.lean ====
section
/-! DEFINITION. The operands: byte names and byte classes (00_scope.md R15 to R17), the bytes and fields of an SPI header (20_memory.md R51, R52; 40_header_codec.md R103), and the parameters a header kind or mode selects (R104, R108). -/

namespace Sys2Proof.Machine

/-- The bytes of an ASCII string literal, one a character, no terminator (R8). PRESUMED, log entry 10. -/
def ascii (s : String) : List Byte :=
  s.toList.map fun c => BitVec.ofNat 8 c.toNat

/-- Carriage return (R16). PRESUMED, log entry 10. -/
abbrev byteCR : Byte := 0x0D
/-- Line feed (R16). PRESUMED, log entry 10. -/
abbrev byteLF : Byte := 0x0A
/-- Space (R16). -/
abbrev byteSP : Byte := 0x20
/-- Horizontal tab (R16). -/
abbrev byteHT : Byte := 0x09
/-- The escape marker (R6, R16). -/
abbrev byteESC : Byte := 0x1B
/-- 'Z' (R16). PRESUMED, log entry 10. -/
abbrev byteZ : Byte := 0x5A
/-- 'H' (R16). PRESUMED, log entry 10. -/
abbrev byteH : Byte := 0x48
/-- 'y' (R16). PRESUMED, log entry 10. -/
abbrev byteLowerY : Byte := 0x79
/-- 'O' (R16). PRESUMED, log entry 10. -/
abbrev byteO : Byte := 0x4F
/-- 'F' (R16). PRESUMED, log entry 10. -/
abbrev byteF : Byte := 0x46

/-- `is_digit(b)` (R17). -/
def isDigit (b : Byte) : Bool :=
  0x30 ≤ b.toNat && b.toNat ≤ 0x39

/-- `digit(b)` (R17), for a digit. -/
def digit (b : Byte) : Nat :=
  b.toNat - 0x30

/-- `cid_valid(b)` (R15). -/
def cidValid (b : Byte) : Bool :=
  (0x30 ≤ b.toNat && b.toNat ≤ 0x39) || (0x61 ≤ b.toNat && b.toNat ≤ 0x66)

/-- Byte `k` of a header: bits `[8k+7:8k]` (R51). -/
def hdrByte (h : Hdr) (k : Nat) : Byte :=
  h.extractLsb' (8 * k) 8

/-- A header from its bytes, byte 0 first on the wire (R51, R104). -/
def mkHdr (h0 h1 h2 h3 h4 h5 h6 h7 : Byte) : Hdr :=
  h7 ++ h6 ++ h5 ++ h4 ++ h3 ++ h2 ++ h1 ++ h0

/-- `hlen(h)`: byte 5 is the low byte, byte 6 the high byte (R52, R103). -/
def hdrLen (h : Hdr) : Half :=
  hdrByte h 6 ++ hdrByte h 5

/-- The reserved bytes `{h[4], h[3], h[2]}` (R80, R103). -/
def hdrRsv (h : Hdr) : BitVec 24 :=
  hdrByte h 4 ++ hdrByte h 3 ++ hdrByte h 2

/-- The operation byte of a host-built header (R104). -/
def hencOp (p : Params) : HencKind → Byte
  | .wreq => p.opWriteReq
  | .rreq => p.opReadReq
  | .dfh => p.opDataFromHost

/-- The greatest length a host-built header may declare (R104, R105). -/
def hencMax (p : Params) : HencKind → Nat
  | .wreq => p.maxTxLen
  | .rreq => p.maxRxLen
  | .dfh => p.maxTxLen

/-- The operation byte a mode expects (R111). -/
def hvalOp (p : Params) : HvalMode → Byte
  | .wrsp => p.opWriteRespOk
  | .rrsp => p.opReadRespOk
  | .dth => p.opDataToHost

end Sys2Proof.Machine
end

