-- ==== Sys2Proof/Machine/Flags.lean ====
section
/-! DEFINITION. The flags and codes of the outputs: tags (30_encoding.md R81, R82), HVAL's checks (R83; 40_header_codec.md R109 to R114), the status output (10_state.md R38) and the derived observables (R42). -/

namespace Sys2Proof.Machine

/-- The code of a tag (R81). -/
def Tag.code : Tag → BitVec 5
  | .none => 0
  | .ok => 1
  | .error => 2
  | .errSocketFailure => 3
  | .errIpConfigFail => 4
  | .invalidInput => 5
  | .invalidCid => 6
  | .disassociated => 7
  | .boot => 8
  | .disconnect => 9
  | .wake => 10
  | .unmatched => 11
  | .tcpServerConnect => 12
  | .bulkDataRx => 13
  | .udpBulkDataRx => 14
  | .escOk => 15
  | .escFail => 16
  | .inputTooLong => 17
  | .bufError => 18
  | .timeout => 19
  | .noMemory => 20
  | .transportError => 21

/-- A terminal tag (R82): every tag from 1 to 21 but UNMATCHED. -/
def Tag.terminal (t : Tag) : Bool :=
  t != .none && t != .unmatched

/-- The code of an HVAL error (R83). -/
def HvErr.code : HvErr → BitVec 3
  | .none => 0
  | .badMagic => 1
  | .badCksum => 2
  | .badOp => 3
  | .zeroLen => 4
  | .badLen => 5

/-- The code of `st` (R21). -/
def St.code : St → BitVec 3
  | .start => 0
  | .response => 1
  | .escStart => 2
  | .bulkData => 3
  | .udpBulkData => 4

/-- The code of `bphase` (R30). -/
def Bphase.code : Bphase → BitVec 2
  | .cidp => 0
  | .hdrp => 1
  | .lenp => 2
  | .payp => 3

/-- `st` (R21). -/
def Block.st (b : Block) : St :=
  match b.fsm with
  | .start => .start
  | .response => .response
  | .escStart => .escStart
  | .bulkData _ => .bulkData
  | .udpBulkData _ => .udpBulkData

/-- `bphase` (R30): CIDP outside the two bulk states. -/
def Block.bphase (b : Block) : Bphase :=
  match b.fsm with
  | .start => .cidp
  | .response => .cidp
  | .escStart => .cidp
  | .bulkData .cidp => .cidp
  | .bulkData .lenp => .lenp
  | .bulkData .payp => .payp
  | .udpBulkData .cidp => .cidp
  | .udpBulkData .hdrp => .hdrp
  | .udpBulkData .lenp => .lenp
  | .udpBulkData .payp => .payp

/-- The status output `stat` (R38): valid after every step (R224). It has no `pool_len` (DEDUCED, log entry 19). -/
def Block.stat (b : Block) : Stat where
  st := b.st
  accLen := b.accLen
  skip := b.skip
  poolCount := b.poolCount
  poolOvf := b.poolOvf
  escKind := b.escKind
  escLen := b.escLen
  escDone := b.escDone
  bphase := b.bphase
  dcount := b.dcount
  blen := b.blen
  spSeen := b.spSeen
  tabSeen := b.tabSeen
  udpHdrLen := b.udpHdrLen
  connCid := b.connCid

/-- `esc_cid` (R42), defined when `esc_len >= 1`. -/
def Block.escCid (b : Block) : Option Byte :=
  b.escByte 0

/-- `esc_cid_ok` (R42). -/
def Block.escCidOk (b : Block) : Option Bool :=
  b.escCid.map cidValid

/-- `esc_payload` (R42): `esc_buf[1 + udp_hdr_len .. esc_len)`. -/
def Block.escPayload (b : Block) : List Byte :=
  (Table.upTo b.escBuf b.escLen).drop (1 + b.udpHdrLen)

/-- `esc_payload_len` (R42). DESIGN CHOICE: where `esc_len = 0` (no CID since reset) R42's difference is below zero
and the spec gives no value; the subtraction of natural numbers answers 0 (log entry 20). -/
def Block.escPayloadLen (b : Block) : Nat :=
  b.escLen - 1 - b.udpHdrLen

/-- `cksum(h)` (R100): the exact sum of bytes 1 to 6, truncated to 8 bits and complemented. -/
def cksum (h : Hdr) : Byte :=
  ~~~BitVec.ofNat 8
    ((hdrByte h 1).toNat + (hdrByte h 2).toNat + (hdrByte h 3).toNat + (hdrByte h 4).toNat +
      (hdrByte h 5).toNat + (hdrByte h 6).toNat)

/-- `z_ok` (R108, R112): only a read response must declare a length other than 0. -/
def hvalZeroOk (mode : HvalMode) (len : Half) : Bool :=
  match mode with
  | .wrsp => true
  | .rrsp => len != 0
  | .dth => true

/-- `l_ok` (R108, R112). -/
def hvalLenOk (mode : HvalMode) (elen len : Half) : Bool :=
  match mode with
  | .wrsp => len == elen
  | .rrsp => decide (len.toNat ≤ elen.toNat)
  | .dth => len == elen

/-- `hv_err` (R108): the first failed check in the order of R114. -/
def hvalErr (p : Params) (mode : HvalMode) (elen : Half) (h : Hdr) : HvErr :=
  if p.checkMagic && hdrByte h 0 != p.magic then .badMagic
  else if p.checkCksum && hdrByte h 7 != cksum h then .badCksum
  else if hdrByte h 1 != hvalOp p mode then .badOp
  else if !hvalZeroOk mode (hdrLen h) then .zeroLen
  else if !hvalLenOk mode elen (hdrLen h) then .badLen
  else .none

/-- `hv_more` (R113). -/
def hvalMore (p : Params) (h : Hdr) : Bool :=
  hdrByte h p.moreByte &&& p.moreMask != 0

end Sys2Proof.Machine
end

