-- ==== Sys2Proof/Machine/Codec.lean ====
section
/-! DEFINITION. The SPI frame header codec: HENC and HVAL (40_header_codec.md). Both are pure: no field of `S` changes (R36). -/

namespace Sys2Proof.Machine

/-- The header HENC builds for an operation byte and a length (R84, R104). -/
def hencHdr (p : Params) (op : Byte) (len : Half) : Hdr :=
  let body := mkHdr p.magic op 0 0 0 (len.extractLsb' 0 8) (len.extractLsb' 8 8)
  body (cksum (body 0))

/-- HENC's outputs (R104): the header, or `enc_err` for a length above the maximum. -/
def hencOut (p : Params) (kind : HencKind) (len : Half) : Out :=
  if hencMax p kind < len.toNat then { Out.quiet with encErr := some true }
  else { Out.quiet with hdr := some (hencHdr p (hencOp p kind) len), encErr := some false }

/-- HVAL's outputs (R108). -/
def hvalOut (p : Params) (mode : HvalMode) (elen : Half) (h : Hdr) : Out :=
  { Out.quiet with
    hvOk := some (hvalErr p mode elen h == .none)
    hvErr := some (hvalErr p mode elen h)
    hvOp := some (hdrByte h 1)
    hvLen := some (hdrLen h)
    hvRsv := some (hdrRsv h)
    hvMore := some (hvalMore p h) }

/-- HENC write-request (R104). -/
def execHencWreq (len : Half) (s : State) : Host.Outcome State Fault Refusal :=
  .next { s with out := hencOut Config.params .wreq len }

/-- HENC read-request (R104). -/
def execHencRreq (len : Half) (s : State) : Host.Outcome State Fault Refusal :=
  .next { s with out := hencOut Config.params .rreq len }

/-- HENC data-from-host (R104). -/
def execHencDfh (len : Half) (s : State) : Host.Outcome State Fault Refusal :=
  .next { s with out := hencOut Config.params .dfh len }

/-- HVAL write-response (R108). -/
def execHvalWrsp (elen : Half) (din : Hdr) (s : State) : Host.Outcome State Fault Refusal :=
  .next { s with out := hvalOut Config.params .wrsp elen din }

/-- HVAL read-response (R108). -/
def execHvalRrsp (elen : Half) (din : Hdr) (s : State) : Host.Outcome State Fault Refusal :=
  .next { s with out := hvalOut Config.params .rrsp elen din }

/-- HVAL data-to-host (R108). -/
def execHvalDth (elen : Half) (din : Hdr) (s : State) : Host.Outcome State Fault Refusal :=
  .next { s with out := hvalOut Config.params .dth elen din }

end Sys2Proof.Machine
end

