-- ==== Sys2Proof/Machine/Classifier.lean ====
section
/-! DEFINITION. The response classifier: a pure function of a line and the parameters (41_classifier.md). -/

namespace Sys2Proof.Machine

/-- `starts_with(line, p)` (R132). -/
def startsWith (line p : List Byte) : Bool :=
  p.isPrefixOf line

/-- `contains(line, m)` (R132): exact bytes, case-sensitive, 0x00 an ordinary byte. -/
def contains : List Byte → List Byte → Bool
  | [], m => startsWith [] m
  | c :: cs, m => startsWith (c :: cs) m || contains cs m

/-- What follows the first occurrence of `m` in a line (R133, R135). -/
def afterFirst (m : List Byte) : List Byte → Option (List Byte)
  | [] => if startsWith [] m then some [] else none
  | c :: cs => if startsWith (c :: cs) m then some ((c :: cs).drop m.length) else afterFirst m cs

/-- `tokens` (R136) with the token read so far. -/
def tokensFrom (token : List Byte) : List Byte → List (List Byte)
  | [] => if token.isEmpty then [] else [token]
  | c :: cs =>
    if c = byteSP then
      if token.isEmpty then tokensFrom [] cs else token :: tokensFrom [] cs
    else tokensFrom (token ++ [c]) cs

/-- `tokens(r)` (R136): the maximal nonempty runs of bytes other than 0x20. -/
def tokens (r : List Byte) : List (List Byte) :=
  tokensFrom [] r

/-- The marker table, in priority order (R131, R139). -/
def markers (p : Params) : List (List Byte × Tag) :=
  [(ascii "OK", .ok),
   (ascii "ERROR: SOCKET FAILURE", .errSocketFailure),
   (ascii "ERROR: IP CONFIG FAIL", .errIpConfigFail),
   (ascii "ERROR", .error),
   (ascii "INVALID INPUT", .invalidInput),
   (ascii "INVALID CID", .invalidCid),
   (ascii "DISASSOCIATED", .disassociated),
   (ascii "Disassociation Event", .disassociated)] ++
  p.bootMarkers.map (fun m => (m, .boot)) ++
  [(ascii "DISCONNECT", .disconnect)] ++
  p.wakeMarkers.map (fun m => (m, .wake))

/-- The first entry of a table, counted from `k`, whose marker a line contains (R133). -/
def firstMatch (line : List Byte) (k : Nat) : List (List Byte × Tag) → Option (Tag × Nat)
  | [] => none
  | (m, t) :: rest => if contains line m then some (t, k) else firstMatch line (k + 1) rest

/-- `ECHO_PREFIX` (R6, R134). -/
def echoPrefix : List Byte :=
  ascii "AT+"

/-- The pattern of the CONNECT rule (R135). -/
def connectPattern : List Byte :=
  ascii "CONNECT "

/-- No match (R138). -/
def Verdict.unmatched : Verdict where
  tag := .unmatched
  midx := 0xFF
  cid := none

/-- The CONNECT rule (R135 to R137): at least four tokens after the first "CONNECT "; the CID is the
first byte of the second. -/
def connectRule (line : List Byte) : Verdict :=
  match afterFirst connectPattern line with
  | none => .unmatched
  | some rest =>
    match tokens rest with
    | _ :: (c :: _) :: _ :: _ :: _ => { tag := .tcpServerConnect, midx := 0xF1, cid := some c }
    | _ => .unmatched

/-- `classify(line)` (R133). DEDUCED: a boot or wake marker equal to "\r", which R6 allows, makes the line "\r" BOOT
or WAKE by R131 to R133, where R140 (i) has it UNMATCHED whatever the markers are (log entry 21). -/
def classify (p : Params) (line : List Byte) : Verdict :=
  match firstMatch line 0 (markers p) with
  | some (t, k) => { tag := t, midx := BitVec.ofNat 8 k, cid := none }
  | none =>
    if startsWith line echoPrefix then { tag := .unmatched, midx := 0xF0, cid := none }
    else connectRule line

end Sys2Proof.Machine
end

