-- ==== Sys2Proof/Machine/Feed.lean ====
section
/-! DEFINITION. The response assembler and escape sequence detector: FEED (42_assembler_fsm.md). One function for each state and sub-phase of R90. -/

namespace Sys2Proof.Machine

/-- `finish_line()` (R165): the line is stored if there is room, classified, and ends the batch if its
tag is terminal. -/
def finishLine (p : Params) (b : Block) : Block × Emitted :=
  let v := classify p b.line
  ({ b.storeLine.dropLine with
      connCid := if v.tag = .tcpServerConnect then v.cid.getD b.connCid else b.connCid
      fsm := if v.tag = .unmatched then b.fsm else .start },
    { tag := v.tag, final := false, midx := v.midx })

/-- FEED in START (R161 to R163). -/
def feedStart (v : Byte) (b : Block) : Block × Emitted :=
  if v = byteCR ∨ v = byteLF then (b, .nothing)
  else if v = byteESC then (b.enterEsc, .nothing)
  else ({ b.newBatch.beginLine v with fsm := .response }, .nothing)

/-- FEED in RESPONSE (R170 to R175), the cases in the order of section 3. -/
def feedResponse (p : Params) (v : Byte) (b : Block) : Block × Emitted :=
  if v = byteLF then
    if b.skip then ({ b with skip := false, fsm := .start }, .nothing) else finishLine p b
  else if b.skip then (b, .nothing)
  else if v = byteESC ∧ p.escInResponse = .dispatch then (b.dropLine.enterEsc, .nothing)
  else if b.accLen = p.lineMax then ({ b.dropLine with skip := true }, .of .inputTooLong false)
  else (b.appendLine v, .nothing)

/-- FEED in ESC_START (R180 to R185). -/
def feedEscStart (v : Byte) (b : Block) : Block × Emitted :=
  if v = byteZ ∨ v = byteH then ({ b with escKind := v, fsm := .bulkData .cidp }, .nothing)
  else if v = byteLowerY then
    ({ b with escKind := v, fsm := .udpBulkData .cidp, spSeen := false, tabSeen := false }, .nothing)
  else if v = byteO then ({ b with fsm := .start }, .of .escOk false)
  else if v = byteF then ({ b with fsm := .start }, .of .escFail false)
  else ({ b with fsm := .start }, .nothing)

/-- FEED in LENP of either bulk state (R187 to R190): `tag` is `bulk_tag(st)`, `payp` the state with
sub-phase PAYP. -/
def feedLength (tag : Tag) (payp : Fsm) (v : Byte) (b : Block) : Block × Emitted :=
  if isDigit v then
    if b.dcount < 3 then
      ({ b with blen := b.blen * 10 + digit v, dcount := b.dcount + 1 }, .nothing)
    else if b.blen * 10 + digit v = 0 then ({ b with escDone := true }.leaveBulk, .of tag true)
    else ({ b with blen := b.blen * 10 + digit v, dcount := 4, fsm := payp }, .nothing)
  else (b.leaveBulk, .nothing)

/-- FEED in PAYP of either bulk state (R191, R196): the byte's value is never examined. -/
def feedPayload (tag : Tag) (v : Byte) (b : Block) : Block × Emitted :=
  if b.blen - 1 = 0 then ({ b.storeEsc v with escDone := true }.leaveBulk, .of tag true)
  else ({ b.storeEsc v with blen := b.blen - 1 }, .of tag false)

/-- FEED in HDRP (R193 to R195): the overflow is checked before the delimiters (R248). -/
def feedHeader (p : Params) (v : Byte) (b : Block) : Block × Emitted :=
  if b.udpHdrLen = p.udpHdrMax then (b.leaveBulk, .of .bufError false)
  else if v = byteSP then ({ b.storeHdr v with spSeen := true }, .nothing)
  else if v = byteHT ∧ b.spSeen = true then
    ({ b.storeHdr v with tabSeen := true, fsm := .udpBulkData .lenp }, .nothing)
  else (b.storeHdr v, .nothing)

/-- `FEED(b)` (R160): the next block and what the byte emits, by state and sub-phase (R90). -/
def feed (p : Params) (v : Byte) (b : Block) : Block × Emitted :=
  match b.fsm with
  | .start => feedStart v b
  | .response => feedResponse p v b
  | .escStart => feedEscStart v b
  | .bulkData .cidp => ({ b.storeCid v with fsm := .bulkData .lenp }, .nothing)
  | .bulkData .lenp => feedLength .bulkDataRx (.bulkData .payp) v b
  | .bulkData .payp => feedPayload .bulkDataRx v b
  | .udpBulkData .cidp => ({ b.storeCid v with fsm := .udpBulkData .hdrp }, .nothing)
  | .udpBulkData .hdrp => feedHeader p v b
  | .udpBulkData .lenp => feedLength .udpBulkDataRx (.udpBulkData .payp) v b
  | .udpBulkData .payp => feedPayload .udpBulkDataRx v b

/-- `FEED*(S, w)` (R198): the block after the bytes of `w`, and what each byte emitted. -/
def feedAll (p : Params) : List Byte → Block → Block × List Emitted
  | [], b => (b, [])
  | v :: w, b =>
    let one := feed p v b
    let rest := feedAll p w one.1
    (rest.1, one.2 :: rest.2)

/-- FEED's outputs (R80, R169). -/
def feedOut (e : Emitted) : Out :=
  { Out.quiet with tag := some e.tag, final := some e.final, midx := some e.midx }

/-- FEED (R160). No byte value is illegal (R92, R242). -/
def execFeed (v : Byte) (s : State) : Host.Outcome State Fault Refusal :=
  .next { s with
    block := (feed Config.params v s.block).1
    out := feedOut (feed Config.params v s.block).2 }

end Sys2Proof.Machine
end

