-- ==== Sys2Proof/Machine/Readout.lean ====
section
/-! DEFINITION. NOP, the read-out commands and the reserved commands (43_readout.md; 60_exceptions.md R241). None changes a field of `S` (R57). -/

namespace Sys2Proof.Machine

/-- NOP (R225). -/
def execNop (s : State) : Host.Outcome State Fault Refusal :=
  .next { s with out := Out.quiet }

/-- The outputs of a read that found a value (R220, R221, R223). -/
def readOut (v : Half) : Out :=
  { Out.quiet with rdata := some v, rdErr := some false }

/-- The outputs of a read of a location that holds no value (R222). -/
def readErrOut : Out :=
  { Out.quiet with rdErr := some true }

/-- The end of a read-out: the value read, or `fault ReadUnwritten` (R222, R244; log entry 7). -/
def answerRead (v : Option Half) (s : State) : Host.Outcome State Fault Refusal :=
  match v with
  | some x => .next { s with out := readOut x }
  | none => .fault (.readUnwritten readErrOut)

/-- PRD (R220): a byte of a pool line, zero-extended. -/
def execPrd (slot : Slot) (idx : Half) (s : State) : Host.Outcome State Fault Refusal :=
  answerRead ((s.block.poolByte slot.toNat idx.toNat).map fun v => v.setWidth 16) s

/-- PLEN (R221): the length of a pool line. -/
def execPlen (slot : Slot) (s : State) : Host.Outcome State Fault Refusal :=
  answerRead ((s.block.poolLength slot.toNat).map fun n => BitVec.ofNat 16 n) s

/-- ERD (R223): a byte of the escape scratch buffer, zero-extended. -/
def execErd (idx : Half) (s : State) : Host.Outcome State Fault Refusal :=
  answerRead ((s.block.escByte idx.toNat).map fun v => v.setWidth 16) s

/-- The reserved command `op = 111` (R226). -/
def execReservedOp111 (_w : Cmd) (s : State) : Host.Outcome State Fault Refusal :=
  .next s.raiseCmdError

/-- HENC with `ksel = 3` (R91, R241). -/
def execReservedHencKsel11 (_w : Cmd) (s : State) : Host.Outcome State Fault Refusal :=
  .next s.raiseCmdError

/-- HVAL with `mode = 3` (R91, R241). -/
def execReservedHvalMode11 (_w : Cmd) (s : State) : Host.Outcome State Fault Refusal :=
  .next s.raiseCmdError

end Sys2Proof.Machine
end

