-- ==== Sys2Proof/Machine/Dispatch.lean ====
section
/-! DEFINITION. The meaning of each command: one arm for each constructor of Instr. -/

namespace Sys2Proof.Machine

def exec (i : Instr) (s : State) : Host.Outcome State Fault Refusal :=
  match i with
  | .nop => Sys2Proof.Machine.execNop s
  | .feed b => Sys2Proof.Machine.execFeed b s
  | .hencWreq len => Sys2Proof.Machine.execHencWreq len s
  | .hencRreq len => Sys2Proof.Machine.execHencRreq len s
  | .hencDfh len => Sys2Proof.Machine.execHencDfh len s
  | .hvalWrsp elen din => Sys2Proof.Machine.execHvalWrsp elen din s
  | .hvalRrsp elen din => Sys2Proof.Machine.execHvalRrsp elen din s
  | .hvalDth elen din => Sys2Proof.Machine.execHvalDth elen din s
  | .prd slot idx => Sys2Proof.Machine.execPrd slot idx s
  | .plen slot => Sys2Proof.Machine.execPlen slot s
  | .erd idx => Sys2Proof.Machine.execErd idx s
  | .reservedOp111 w => Sys2Proof.Machine.execReservedOp111 w s
  | .reservedHencKsel11 w => Sys2Proof.Machine.execReservedHencKsel11 w s
  | .reservedHvalMode11 w => Sys2Proof.Machine.execReservedHvalMode11 w s

end Sys2Proof.Machine
end

