-- ==== Sys2Proof/Machine/Step.lean ====
section
/-! DEFINITION. One step of the machine: one host input taken (30_encoding.md R70; 70_reset_and_hazards.md R270). -/

namespace Sys2Proof.Machine

/-- One step: a reset step (R270), or one command decoded and performed (R70). A word the decoder
rejects is a command error (R91, R241). -/
def step (s : State) : Host.Outcome State Fault Refusal :=
  match s.takeInput with
  | .reset rest => .next rest.resetStep
  | .command cmd din rest =>
    match decode cmd din with
    | .command i => exec i rest
    | .reject _ => .next rest.raiseCmdError
  | .refusal r => .refused r

/-- The state with the instruction whose bits are `w` (log entry 11) as the host's next input, before
those it already presents; `started`, so that the step takes it (log entry 1). -/
def State.withFetchWord (s : State) (nbits w : Nat) : State :=
  { s with
    inputs := { rst := false, cmd := tableCmd nbits w, din := tableDin nbits w } :: s.inputs
    started := true }

end Sys2Proof.Machine
end

