-- ==== Sys2Proof/Safety.lean ====
section
/-! DEFINITION. What a good state and a good run are, and the parts of the spec's statements that the obligations name: the invariants of 10_state.md R41, the states a host can reach, and the frames of 30_encoding.md R87. -/

namespace Sys2Proof.Machine

/-- An array holds a value at exactly the indices below `n` (R22, R24, R28). -/
abbrev Table.filled {α : Type} (t : Table α) (n : Nat) : Prop :=
  Table.keys t = List.range n

/-- The thirteen invariants of R41, in its order. Those that the constructors of `Fsm` make true
(`bphase` outside the bulk states and in BULK_DATA) are stated of the views `st` and `bphase`. -/
structure Block.R41 (p : Params) (b : Block) : Prop where
  acc_len : b.accLen ≤ p.lineMax
  pool_count : b.poolCount ≤ 32
  pool_len : ∀ s n, s < b.poolCount → b.poolLength s = some n → n ≤ p.lineMax
  esc_len : b.escLen ≤ 1 + b.udpHdrLen + 9999 ∧ 1 + b.udpHdrLen + 9999 ≤ p.escBufSize
  udp_hdr_len : b.udpHdrLen ≤ p.udpHdrMax
  dcount : b.dcount ≤ 4
  blen : b.blen ≤ 9999
  bphase_cidp : b.st = .start ∨ b.st = .response ∨ b.st = .escStart → b.bphase = .cidp
  bphase_bulk : b.st = .bulkData → b.bphase ≠ .hdrp
  skip : b.skip = true → b.st = .response ∧ b.accLen = 0
  tab_seen : b.tabSeen = true → b.spSeen = true
  payp : b.bphase = .payp → 1 ≤ b.blen
  idle_acc : b.st ≠ .response → b.accLen = 0

/-- The arrays hold values exactly below their lengths: the canonical form of the block's memory. -/
structure Block.Stored (b : Block) : Prop where
  acc : Table.filled b.acc b.accLen
  pool : Table.filled b.pool b.poolCount
  poolLen : Table.filled b.poolLen b.poolCount
  lines : ∀ s line, Table.read b.pool s = some line →
    ∃ n, Table.read b.poolLen s = some n ∧ Table.filled line n
  escBuf : Table.filled b.escBuf b.escLen

/-- What the counters of a bulk frame say in each sub-phase (R31, R32, R34, R67): the part of the
invariant that R41's bounds rest on. -/
def Block.Counts (b : Block) : Prop :=
  match b.fsm with
  | .start => True
  | .response => True
  | .escStart => b.dcount = 0 ∧ b.blen = 0
  | .bulkData .cidp => b.dcount = 0 ∧ b.blen = 0
  | .bulkData .lenp => b.dcount ≤ 3 ∧ b.blen < 10 ^ b.dcount ∧ b.udpHdrLen = 0 ∧ b.escLen = 1
  | .bulkData .payp => b.udpHdrLen = 0 ∧ b.escLen + b.blen ≤ 1 + 9999
  | .udpBulkData .cidp => b.dcount = 0 ∧ b.blen = 0
  | .udpBulkData .hdrp => b.dcount = 0 ∧ b.blen = 0 ∧ b.escLen = 1 + b.udpHdrLen
  | .udpBulkData .lenp => b.dcount ≤ 3 ∧ b.blen < 10 ^ b.dcount ∧ b.escLen = 1 + b.udpHdrLen
  | .udpBulkData .payp => b.escLen + b.blen ≤ 1 + b.udpHdrLen + 9999

/-- The block's invariant: R41, the canonical form of the arrays, and the frame counters. -/
structure Block.Inv (p : Params) (b : Block) : Prop where
  r41 : b.R41 p
  stored : b.Stored
  counts : b.Counts

/-- The states the machine comes to from reset, whatever the host presents and when. -/
inductive Reachable : State → Prop where
  | reset : Reachable State.reset
  | drive (s : State) (inputs : List Input) : Reachable s → Reachable { s with inputs := inputs }
  | step (s t : State) : Reachable s → step s = .next t → Reachable t

/-- A run of `k` steps that meets neither a fault nor a refusal. -/
def SafeRun (k : Nat) (s : State) : Prop :=
  ∃ t, Sys2Proof.core.run k s = .next t

/-- The host's input for a command (R70). -/
def Input.ofInstr (i : Instr) : Input where
  rst := false
  cmd := (encode i).1
  din := (encode i).2

/-- The reserved-zero bits of a command word, by its `op` and `cmd[4:3]` (R71). -/
def reservedZero (w : Cmd) : Cmd :=
  if w.extractLsb' 0 3 = 0#3 then w &&& 0xFFFFFFF8
  else if w.extractLsb' 0 3 = 1#3 then w &&& 0xFFFF00F8
  else if w.extractLsb' 0 3 = 2#3 then w &&& 0x0000FFE0
  else if w.extractLsb' 0 3 = 3#3 then w &&& 0x0000FFE0
  else if w.extractLsb' 0 3 = 4#3 then w &&& 0x0000E0F8
  else if w.extractLsb' 0 3 = 5#3 then w &&& 0xFFFFE0F8
  else if w.extractLsb' 0 3 = 6#3 then w &&& 0x0000FFF8
  else 0

/-- The four ASCII digits of a length below 10000, most significant first (R53, R87). -/
def lengthDigits (n : Nat) : List Byte :=
  [BitVec.ofNat 8 (0x30 + n / 1000 % 10), BitVec.ofNat 8 (0x30 + n / 100 % 10),
   BitVec.ofNat 8 (0x30 + n / 10 % 10), BitVec.ofNat 8 (0x30 + n % 10)]

/-- The wire bytes of a TCP or HTTP bulk frame (R87). -/
def bulkFrame (kind cid : Byte) (payload : List Byte) : List Byte :=
  byteESC :: kind :: cid :: (lengthDigits payload.length ++ payload)

/-- The wire bytes of a UDP bulk frame (R87). -/
def udpFrame (cid : Byte) (hdr payload : List Byte) : List Byte :=
  byteESC :: byteLowerY :: cid :: (hdr ++ (lengthDigits payload.length ++ payload))

/-- A UDP header text: it ends at its first tab that follows a space (R87). `text` is the header
without that tab. -/
def udpText (text : List Byte) : Prop :=
  byteSP ∈ text ∧ ∀ before after : List Byte, text = before ++ byteSP :: after → byteHT ∉ after

end Sys2Proof.Machine
end

