-- ==== Sys2Proof/Certificates/Slice0/Obligations.lean ====
section
/-! DEFINITION. The statements for the provers: what the rules of spec/ say a command, a step and a run do. -/

open Sys2Proof Sys2Proof.Machine

/-! ### Encoding -/

/-- The decoder reads every well-formed command back from its encoding, with every operand (R71 to R79, R96). -/
def Obligations.DecodeOfEncodeIsTheInstruction : Prop :=
  ∀ i : Instr, i.wf = true → decode (encode i).1 (encode i).2 = .command i

/-- Where the decoder reads a command, the command is well-formed and its encoding is the word it was read
from; `din` is encoded where the word is one of HVAL's, which alone reads it (R71 to R79, R96). -/
def Obligations.EncodeOfDecodeIsTheWord : Prop :=
  ∀ (w : Cmd) (din : Hdr) (i : Instr), decode w din = .command i →
    i.wf = true ∧ (encode i).1 = w ∧
      (encode i).2 = (if w.extractLsb' 0 3 = 3#3 ∧ w.extractLsb' 3 2 ≠ 3#2 then din else 0)

/-- R241: the step sets `cmd_err`, changes no field of `S` and defines no other output exactly when the
word is reserved or has a nonzero reserved-zero bit. -/
def Obligations.CommandErrorExactlyWhenReserved : Prop :=
  ∀ (s : State) (inp : Input) (rest : List Input), s.started = true → s.inputs = inp :: rest → inp.rst = false →
    (step s = .next { s with inputs := rest, out := { Out.quiet with cmdErr := true } } ↔
      (inp.cmd.extractLsb' 0 3 = 7#3 ∨
       (inp.cmd.extractLsb' 0 3 = 2#3 ∧ inp.cmd.extractLsb' 3 2 = 3#2) ∨
       (inp.cmd.extractLsb' 0 3 = 3#3 ∧ inp.cmd.extractLsb' 3 2 = 3#2) ∨
       reservedZero inp.cmd ≠ 0))

/-- The words R96 lists, and those of R225 and R226, decode to the commands the spec writes beside them. -/
def Obligations.DecodesTheWordsOfTheSpec : Prop :=
  decode 0x00004F01 0 = .command (.feed 0x4F) ∧
  decode 0x00000A01 0 = .command (.feed 0x0A) ∧
  decode 0x00050002 0 = .command (.hencWreq 5) ∧
  decode 0x0578000A 0 = .command (.hencRreq 1400) ∧
  decode 0x00050003 0xE9000500000011A5 = .command (.hvalWrsp 5 0xE9000500000011A5) ∧
  decode 0x00000305 0 = .command (.plen 3) ∧
  decode 0x00020304 0 = .command (.prd 3 2) ∧
  decode 0x00000006 0 = .command (.erd 0) ∧
  decode 0x00000000 0 = .command .nop ∧
  decode 0x00000007 0 = .command (.reservedOp111 0x00000007)

/-! ### Steps -/

/-- A step with `rst = 0` performs the command its word decodes to, on the state without that input (R70). -/
def Obligations.StepRunsTheDecodedCommand : Prop :=
  ∀ (s : State) (inp : Input) (rest : List Input) (i : Instr),
    s.started = true → s.inputs = inp :: rest → inp.rst = false → decode inp.cmd inp.din = .command i →
      step s = exec i { s with inputs := rest }

/-- The step after `withFetchWord` runs the command the table word decodes to: how a program is given to
the model (log entries 1 and 11), the model's choice. -/
def Obligations.FetchWordIsRunNext : Prop :=
  ∀ (s : State) (nbits w : Nat) (i : Instr), decodeTableWord nbits w = some i →
    step (s.withFetchWord nbits w) = exec i { s with started := true }

/-- R40: after a reset step every field has its reset value, whatever the state was, `cmd` and `din` ignored. -/
def Obligations.ResetStepGivesResetValues : Prop :=
  ∀ (s : State) (inp : Input) (rest : List Input), s.inputs = inp :: rest → inp.rst = true →
    ∃ t : State, step s = .next t ∧ t.inputs = rest ∧ t.started = true ∧ t.out = Out.quiet ∧
      t.block.st = .start ∧ t.block.accLen = 0 ∧ (∀ i, t.block.accByte i = none) ∧ t.block.skip = false ∧
      (∀ slot i, t.block.poolByte slot i = none) ∧ (∀ slot, t.block.poolLength slot = none) ∧
      t.block.poolCount = 0 ∧ t.block.poolOvf = false ∧ t.block.escKind = 0x00 ∧
      (∀ i, t.block.escByte i = none) ∧ t.block.escLen = 0 ∧ t.block.escDone = false ∧
      t.block.bphase = .cidp ∧ t.block.dcount = 0 ∧ t.block.blen = 0 ∧ t.block.spSeen = false ∧
      t.block.tabSeen = false ∧ t.block.udpHdrLen = 0 ∧ t.block.connCid = 0xFF

/-- R273: a command before the first reset is refused. -/
def Obligations.CommandBeforeResetIsRefused : Prop :=
  ∀ (s : State) (inp : Input) (rest : List Input), s.started = false → s.inputs = inp :: rest →
    inp.rst = false → step s = .refused .beforeReset

/-- The model's choice (log entry 2): with no host input there is no step. -/
def Obligations.NoInputIsRefused : Prop :=
  ∀ s : State, s.inputs = [] → step s = .refused .noCommand

/-- After reset every command is legal: a step that has an input is never refused (R250). -/
def Obligations.StartedMachineIsNeverRefused : Prop :=
  ∀ (s : State) (r : Refusal), s.started = true → s.inputs ≠ [] → step s ≠ .refused r

/-- R244: a read-out of a location that holds no value records the fault, with `rd_err` set; it is the only fault of
a step; and a run that meets it keeps it. -/
def Obligations.FaultsAreUnwrittenReads : Prop :=
  let unwritten : Fault := .readUnwritten { Out.quiet with rdErr := some true }
  (∀ (slot : Slot) (idx : Half) (s : State), s.block.poolByte slot.toNat idx.toNat = none →
    exec (.prd slot idx) s = .fault unwritten) ∧
  (∀ (slot : Slot) (s : State), s.block.poolLength slot.toNat = none → exec (.plen slot) s = .fault unwritten) ∧
  (∀ (idx : Half) (s : State), s.block.escByte idx.toNat = none → exec (.erd idx) s = .fault unwritten) ∧
  (∀ (s : State) (f : Fault), step s = .fault f →
    f = unwritten ∧ (∀ k : Nat, Sys2Proof.core.run (k + 1) s = .fault f) ∧
    ∃ (inp : Input) (rest : List Input) (i : Instr), s.inputs = inp :: rest ∧ decode inp.cmd inp.din = .command i ∧
      ((∃ slot idx, i = .prd slot idx ∧ s.block.poolByte slot.toNat idx.toNat = none) ∨
       (∃ slot, i = .plen slot ∧ s.block.poolLength slot.toNat = none) ∨
       (∃ idx, i = .erd idx ∧ s.block.escByte idx.toNat = none)))

/-- A run over the inputs of FEED commands, one for each byte of a stream, is `FEED*` on the block, and
leaves the later inputs to later steps (R60, R198). -/
def Obligations.RunOverFeedsIsFeedAll : Prop :=
  ∀ (w : List Byte) (s : State) (rest : List Input), s.started = true →
    s.inputs = w.map (fun v => Input.ofInstr (.feed v)) ++ rest →
      ∃ t : State, Sys2Proof.core.run w.length s = .next t ∧ t.block = (feedAll Config.params w s.block).1 ∧
        t.inputs = rest ∧ t.started = true

/-- R39, R198: a stream fed in two pieces, with inputs between them that are no reset and no FEED and that
complete, comes to the state that the stream fed in one piece comes to; only where the second piece is empty may
the outputs be the last other command's. Over every `v` this is also the output of each byte of the second piece. -/
def Obligations.SplitStreamIsTheWholeStream : Prop :=
  ∀ (u v : List Byte) (between rest : List Input) (s m : State), s.started = true →
    (∀ inp ∈ between, inp.rst = false ∧ ∀ x, decode inp.cmd inp.din ≠ .command (.feed x)) →
    let feeds (w : List Byte) : List Input := w.map fun x => Input.ofInstr (.feed x)
    let split : State := { s with inputs := feeds u ++ between ++ feeds v ++ rest }
    let whole : State := { s with inputs := feeds (u ++ v) ++ rest }
    Sys2Proof.core.run (u.length + between.length) split = .next m →
    ∃ t t' : State, Sys2Proof.core.run (u.length + between.length + v.length) split = .next t ∧
      Sys2Proof.core.run (u.length + v.length) whole = .next t' ∧
      t.inputs = rest ∧ t = { t' with out := t.out } ∧ (v ≠ [] → t = t')

/-- Only FEED writes the block, and no command writes the host's inputs (R37, R57). -/
def Obligations.OnlyFeedWritesTheBlock : Prop :=
  ∀ (i : Instr) (s t : State), exec i s = .next t →
    t.inputs = s.inputs ∧ t.started = s.started ∧ ((∀ v, i ≠ .feed v) → t.block = s.block)

/-- R80: a command defines the outputs listed for it and no other; `cmd_err` is 1 for the reserved
commands alone. -/
def Obligations.CommandsDefineTheirOutputs : Prop :=
  ∀ (i : Instr) (s t : State), exec i s = .next t →
    match i with
    | .nop => t.out = Out.quiet
    | .feed _ => ∃ tag final midx,
        t.out = { Out.quiet with tag := some tag, final := some final, midx := some midx }
    | .hencWreq _ | .hencRreq _ | .hencDfh _ =>
        (∃ h, t.out = { Out.quiet with hdr := some h, encErr := some false }) ∨
          t.out = { Out.quiet with encErr := some true }
    | .hvalWrsp _ _ | .hvalRrsp _ _ | .hvalDth _ _ => ∃ ok err op len rsv more,
        t.out = { Out.quiet with
          hvOk := some ok, hvErr := some err, hvOp := some op, hvLen := some len, hvRsv := some rsv,
          hvMore := some more }
    | .prd _ _ | .plen _ | .erd _ => ∃ v, t.out = { Out.quiet with rdata := some v, rdErr := some false }
    | .reservedOp111 _ | .reservedHencKsel11 _ | .reservedHvalMode11 _ =>
        t.out = { Out.quiet with cmdErr := true }

/-- R247: TIMEOUT, NO_MEMORY and TRANSPORT_ERROR have the codes 19, 20 and 21, and the block never emits them. -/
def Obligations.NeverEmitsTransportTags : Prop :=
  Tag.timeout.code = 19 ∧ Tag.noMemory.code = 20 ∧ Tag.transportError.code = 21 ∧
  ∀ s t : State, step s = .next t →
    t.out.tag ≠ some .timeout ∧ t.out.tag ≠ some .noMemory ∧ t.out.tag ≠ some .transportError

/-! ### NOP and the reserved commands -/

/-- R225: the word 0 is NOP, whatever `din` is; it changes no state and sets `cmd_err` to 0. -/
def Obligations.NopChangesNothing : Prop :=
  (∀ din : Hdr, decode 0x00000000 din = .command .nop) ∧
  ∀ s : State, exec .nop s = .next { s with out := Out.quiet }

/-- R226 and R241: the three reserved commands, whatever their other bits, set `cmd_err` and change no state. -/
def Obligations.ReservedCommandsSetCmdErr : Prop :=
  (∀ (w : Cmd) (din : Hdr), w.extractLsb' 0 3 = 7#3 → decode w din = .command (.reservedOp111 w)) ∧
  ∀ (w : Cmd) (s : State),
    exec (.reservedOp111 w) s = .next { s with out := { Out.quiet with cmdErr := true } } ∧
    exec (.reservedHencKsel11 w) s = .next { s with out := { Out.quiet with cmdErr := true } } ∧
    exec (.reservedHvalMode11 w) s = .next { s with out := { Out.quiet with cmdErr := true } }

/-! ### The header codec -/

/-- R104: HENC puts out the header whose bytes the rule lists, its checksum 0xFF less the sum of bytes 1
to 6 modulo 256, or `enc_err` for a length above the maximum of the kind; nothing else changes. -/
def Obligations.HencBuildsTheHeaderOrReports : Prop :=
  ∀ (len : Half) (s : State),
    let lo : Byte := BitVec.ofNat 8 (len.toNat % 256)
    let hi : Byte := BitVec.ofNat 8 (len.toNat / 256)
    let header (op : Byte) : Hdr := mkHdr Config.params.magic op 0 0 0 lo hi
      (BitVec.ofNat 8 (0xFF - (op.toNat + len.toNat % 256 + len.toNat / 256) % 256))
    let built (op : Byte) (max : Nat) : State :=
      if len.toNat > max then { s with out := { Out.quiet with encErr := some true } }
      else { s with out := { Out.quiet with hdr := some (header op), encErr := some false } }
    exec (.hencWreq len) s = .next (built Config.params.opWriteReq Config.params.maxTxLen) ∧
    exec (.hencRreq len) s = .next (built Config.params.opReadReq Config.params.maxRxLen) ∧
    exec (.hencDfh len) s = .next (built Config.params.opDataFromHost Config.params.maxTxLen)

/-- R107: a header HENC produces has the magic, zero reserved bytes, a right checksum and the length it was
given, and every HVAL mode answers HV_BAD_OP for it. -/
def Obligations.HvalOfAHencHeaderIsBadOp : Prop :=
  ∀ (len elen : Half) (h : Hdr) (i : Instr) (s t : State),
    i = .hencWreq len ∨ i = .hencRreq len ∨ i = .hencDfh len → exec i s = .next t → t.out.hdr = some h →
      hdrByte h 0 = Config.params.magic ∧ hdrRsv h = 0 ∧ hdrByte h 7 = cksum h ∧ hdrLen h = len ∧
      ∀ (j : Instr) (s' t' : State), j = .hvalWrsp elen h ∨ j = .hvalRrsp elen h ∨ j = .hvalDth elen h →
        exec j s' = .next t' → t'.out.hvErr = some .badOp ∧ t'.out.hvOk = some false

/-- R108: HVAL puts out the first failed check in the order magic, checksum, operation, zero length,
length, and the header's fields, for each mode; nothing else changes. -/
def Obligations.HvalChecksInOrder : Prop :=
  ∀ (elen : Half) (h : Hdr) (s : State),
    let byte (k : Nat) : Nat := h.toNat / 256 ^ k % 256
    let len : Nat := byte 5 + 256 * byte 6
    let sum : Nat := byte 1 + byte 2 + byte 3 + byte 4 + byte 5 + byte 6
    let err (op : Byte) (zeroOk lenOk : Prop) [Decidable zeroOk] [Decidable lenOk] : HvErr :=
      if Config.params.checkMagic = true ∧ byte 0 ≠ Config.params.magic.toNat then .badMagic
      else if Config.params.checkCksum = true ∧ byte 7 ≠ 0xFF - sum % 256 then .badCksum
      else if byte 1 ≠ op.toNat then .badOp
      else if ¬ zeroOk then .zeroLen
      else if ¬ lenOk then .badLen
      else .none
    let answered (e : HvErr) : State := { s with out := { Out.quiet with
      hvOk := some (decide (e = .none))
      hvErr := some e
      hvOp := some (BitVec.ofNat 8 (byte 1))
      hvLen := some (BitVec.ofNat 16 len)
      hvRsv := some (BitVec.ofNat 24 (byte 2 + 256 * byte 3 + 65536 * byte 4))
      hvMore := some (decide (BitVec.ofNat 8 (byte Config.params.moreByte) &&& Config.params.moreMask ≠ 0)) } }
    exec (.hvalWrsp elen h) s = .next (answered (err Config.params.opWriteRespOk True (len = elen.toNat))) ∧
    exec (.hvalRrsp elen h) s = .next (answered (err Config.params.opReadRespOk (len ≠ 0) (len ≤ elen.toNat))) ∧
    exec (.hvalDth elen h) s = .next (answered (err Config.params.opDataToHost True (len = elen.toNat)))

/-- R100: the checksum is 0xFF less the sum of bytes 1 to 6 modulo 256. -/
def Obligations.ChecksumIsComplementOfSum : Prop :=
  ∀ h : Hdr, (cksum h).toNat = 0xFF - ((hdrByte h 1).toNat + (hdrByte h 2).toNat + (hdrByte h 3).toNat +
    (hdrByte h 4).toNat + (hdrByte h 5).toNat + (hdrByte h 6).toNat) % 256

/-- R101: (a) bytes 0 and 7 do not matter; (b) a change of exactly one of bytes 1 to 6 always does; (c)
their order does not; (d) two changes can cancel. -/
def Obligations.ChecksumProperties : Prop :=
  let covered (h : Hdr) : List Byte := [1, 2, 3, 4, 5, 6].map (hdrByte h)
  (∀ h h' : Hdr, covered h = covered h' → cksum h = cksum h') ∧
  (∀ (h h' : Hdr) (k : Nat), 1 ≤ k → k ≤ 6 → hdrByte h k ≠ hdrByte h' k →
    (∀ j, 1 ≤ j → j ≤ 6 → j ≠ k → hdrByte h j = hdrByte h' j) → cksum h ≠ cksum h') ∧
  (∀ h h' : Hdr, (covered h).Perm (covered h') → cksum h = cksum h') ∧
  (∃ h h' : Hdr, hdrByte h 5 ≠ hdrByte h' 5 ∧ hdrByte h 6 ≠ hdrByte h' 6 ∧
    (∀ j, 1 ≤ j → j ≤ 4 → hdrByte h j = hdrByte h' j) ∧ cksum h = cksum h')

/-- R52: the declared length is byte 5 plus 256 times byte 6. -/
def Obligations.DeclaredLengthIsLittleEndian : Prop :=
  ∀ h : Hdr, (hdrLen h).toNat = (hdrByte h 5).toNat + 256 * (hdrByte h 6).toNat

/-! ### The classifier -/

/-- R132: `contains` and `starts_with` are substring and prefix of bytes. -/
def Obligations.ContainsIsSubstring : Prop :=
  ∀ line m : List Byte,
    (contains line m = true ↔ ∃ i, i + m.length ≤ line.length ∧ (line.drop i).take m.length = m) ∧
    (startsWith line m = true ↔ m.length ≤ line.length ∧ line.take m.length = m)

/-- R136: the tokens are the maximal nonempty runs of bytes other than the space. -/
def Obligations.TokensAreMaximalRuns : Prop :=
  tokens [] = [] ∧
  (∀ w : List Byte, w ≠ [] → (0x20 : Byte) ∉ w → tokens w = [w]) ∧
  (∀ a b : List Byte, tokens (a ++ (0x20 : Byte) :: b) = tokens a ++ tokens b)

/-- R131: the marker table, its entries at the indices the rule gives them; the machine's has every index below
0xF0. -/
def Obligations.MarkerTableOrder : Prop :=
  ∀ p : Params,
    (markers p).take 8 =
      [(ascii "OK", .ok), (ascii "ERROR: SOCKET FAILURE", .errSocketFailure),
       (ascii "ERROR: IP CONFIG FAIL", .errIpConfigFail), (ascii "ERROR", .error),
       (ascii "INVALID INPUT", .invalidInput), (ascii "INVALID CID", .invalidCid),
       (ascii "DISASSOCIATED", .disassociated), (ascii "Disassociation Event", .disassociated)] ∧
    (∀ k, k < p.bootMarkers.length → (markers p)[8 + k]? = p.bootMarkers[k]?.map fun m => (m, Tag.boot)) ∧
    (markers p)[8 + p.bootMarkers.length]? = some (ascii "DISCONNECT", .disconnect) ∧
    (∀ k, (markers p)[9 + p.bootMarkers.length + k]? = p.wakeMarkers[k]?.map fun m => (m, Tag.wake)) ∧
    (markers Config.params).length ≤ 0xF0

/-- R133: the first entry of the table that a line contains gives the tag and the index. -/
def Obligations.FirstMarkerWins : Prop :=
  ∀ (p : Params) (line m : List Byte) (k : Nat) (t : Tag), (markers p)[k]? = some (m, t) → contains line m = true →
    (∀ j m' t', j < k → (markers p)[j]? = some (m', t') → contains line m' = false) →
      classify p line = { tag := t, midx := BitVec.ofNat 8 k, cid := none }

/-- R134 to R138: a line with no marker is an echo, a connection notice with the CID of its second token
after the first "CONNECT ", or unmatched. -/
def Obligations.EchoAndConnectRules : Prop :=
  ∀ (p : Params) (line : List Byte), (∀ e ∈ markers p, contains line e.1 = false) →
    let echo : List Byte := [0x41, 0x54, 0x2B]
    let connect : List Byte := [0x43, 0x4F, 0x4E, 0x4E, 0x45, 0x43, 0x54, 0x20]
    let first (before rest : List Byte) : Prop := line = before ++ connect ++ rest ∧
      ∀ before' rest', line = before' ++ connect ++ rest' → before.length ≤ before'.length
    (startsWith line echo = true → classify p line = { tag := .unmatched, midx := 0xF0, cid := none }) ∧
    (startsWith line echo = false →
      (∀ before rest t0 c t1 t2 t3 more, first before rest → tokens rest = t0 :: (c :: t1) :: t2 :: t3 :: more →
        classify p line = { tag := .tcpServerConnect, midx := 0xF1, cid := some c }) ∧
      (∀ before rest, first before rest → (tokens rest).length < 4 →
        classify p line = { tag := .unmatched, midx := 0xFF, cid := none }) ∧
      (contains line connect = false → classify p line = { tag := .unmatched, midx := 0xFF, cid := none }))

/-- R140 (a) and (b): any line that contains "OK" is OK, entry 0, whatever else it contains. -/
def Obligations.LineWithOkIsOk : Prop :=
  ∀ (p : Params) (before after : List Byte),
    classify p (before ++ [0x4F, 0x4B] ++ after) = { tag := .ok, midx := 0, cid := none }

/-- R141: the classifier's results are the tags 1 to 12. -/
def Obligations.ClassifierTagsAreOneToTwelve : Prop :=
  ∀ (p : Params) (line : List Byte), 1 ≤ (classify p line).tag.code.toNat ∧ (classify p line).tag.code.toNat ≤ 12

/-- R82: UNMATCHED and NONE are not terminal, every other tag is. -/
def Obligations.TerminalTags : Prop :=
  ∀ t : Tag, t.terminal = true ↔ 1 ≤ t.code.toNat ∧ t.code.toNat ≤ 21 ∧ t ≠ .unmatched

/-! ### FEED, one byte -/

/-- FEED completes in every state and for every byte, and touches nothing but the block and the outputs
(R242: none of its errors stops the assembler). -/
def Obligations.FeedAlwaysCompletes : Prop :=
  ∀ (v : Byte) (s : State), ∃ (b : Block) (tag : Tag) (final : Bool) (midx : Byte),
    exec (.feed v) s = .next { s with
      block := b, out := { Out.quiet with tag := some tag, final := some final, midx := some midx } }

/-- R161, R162, R163: FEED in START ignores CR and LF, enters ESC_START at ESC, and begins a new batch with
any other byte. -/
def Obligations.FeedInStart : Prop :=
  ∀ (v : Byte) (s : State), s.block.fsm = .start →
    exec (.feed v) s = .next { s with
      block :=
        if v = 0x0D ∨ v = 0x0A then s.block
        else if v = 0x1B then
          { s.block with fsm := .escStart, dcount := 0, blen := 0, spSeen := false, tabSeen := false }
        else { s.block with
          pool := [], poolLen := [], poolCount := 0, poolOvf := false, acc := [(0, v)], accLen := 1, fsm := .response }
      out := feedOut { tag := .none, final := false, midx := 0xFF } }

/-- R171 to R175: FEED of a byte other than LF in RESPONSE discards it, dispatches an ESC where the parameter
says so, overflows, or appends it; and an LF after an overflow returns to START. -/
def Obligations.FeedInResponse : Prop :=
  ∀ (v : Byte) (s : State), s.block.fsm = .response →
    (v ≠ 0x0A →
      exec (.feed v) s = .next { s with
        block :=
          if s.block.skip = true then s.block
          else if v = 0x1B ∧ Config.params.escInResponse = .dispatch then
            { s.block with
              acc := [], accLen := 0, fsm := .escStart, dcount := 0, blen := 0, spSeen := false, tabSeen := false }
          else if s.block.accLen = Config.params.lineMax then { s.block with acc := [], accLen := 0, skip := true }
          else { s.block with acc := Table.write s.block.acc s.block.accLen v, accLen := s.block.accLen + 1 }
        out := feedOut { tag := if s.block.skip = false ∧ ¬ (v = 0x1B ∧ Config.params.escInResponse = .dispatch) ∧
            s.block.accLen = Config.params.lineMax then .inputTooLong else .none, final := false, midx := 0xFF } }) ∧
    (v = 0x0A → s.block.skip = true →
      exec (.feed v) s = .next { s with
        block := { s.block with skip := false, fsm := .start }
        out := feedOut { tag := .none, final := false, midx := 0xFF } })

/-- R171: a line byte is stored at `acc_len`, whatever it is; no other byte of the line, of a stored line or of
the escape buffer changes. -/
def Obligations.LineByteIsAppended : Prop :=
  ∀ (v : Byte) (s : State), s.block.fsm = .response → s.block.skip = false → v ≠ 0x0A →
    ¬ (v = 0x1B ∧ Config.params.escInResponse = .dispatch) → s.block.accLen < Config.params.lineMax →
    ∃ t : State, exec (.feed v) s = .next t ∧
      t.out = feedOut { tag := .none, final := false, midx := 0xFF } ∧
      t.block.accByte s.block.accLen = some v ∧
      (∀ i, i ≠ s.block.accLen → t.block.accByte i = s.block.accByte i) ∧
      t = { s with out := t.out, block := { s.block with acc := t.block.acc, accLen := s.block.accLen + 1 } }

/-- R165, R170: an LF in RESPONSE with room in the pool copies the line, byte for byte, to the next slot,
changes no byte of another slot, classifies the line, and ends the batch unless the tag is UNMATCHED. -/
def Obligations.LineEndStoresAndClassifies : Prop :=
  ∀ s : State, s.block.Inv Config.params → s.block.fsm = .response → s.block.skip = false → s.block.poolCount < 32 →
    let v := classify Config.params s.block.line
    let n := s.block.poolCount
    ∃ t : State, exec (.feed 0x0A) s = .next t ∧
      t.out = feedOut { tag := v.tag, final := false, midx := v.midx } ∧
      t.block.poolCount = n + 1 ∧ t.block.poolLength n = some s.block.accLen ∧
      (∀ i, i < s.block.accLen → ∃ x, s.block.accByte i = some x ∧ t.block.poolByte n i = some x) ∧
      (∀ i, s.block.accLen ≤ i → t.block.poolByte n i = none) ∧
      (∀ slot, slot ≠ n → t.block.poolLength slot = s.block.poolLength slot) ∧
      (∀ slot i, slot ≠ n → t.block.poolByte slot i = s.block.poolByte slot i) ∧
      (∀ i, t.block.accByte i = none) ∧
      t = { s with out := t.out, block := { s.block with
        pool := t.block.pool, poolLen := t.block.poolLen, poolCount := n + 1, acc := t.block.acc, accLen := 0,
        fsm := if v.tag = .unmatched then .response else .start,
        connCid := if v.tag = .tcpServerConnect then v.cid.getD s.block.connCid else s.block.connCid } }

/-- R165, R170: an LF in RESPONSE with the pool full classifies the line without storing it and sets
`pool_ovf`. -/
def Obligations.LineEndWithFullPool : Prop :=
  ∀ s : State, s.block.fsm = .response → s.block.skip = false → 32 ≤ s.block.poolCount →
    let v := classify Config.params s.block.line
    exec (.feed 0x0A) s = .next { s with
      block := { s.block with
        poolOvf := true, acc := [], accLen := 0, fsm := if v.tag = .unmatched then .response else .start,
        connCid := if v.tag = .tcpServerConnect then v.cid.getD s.block.connCid else s.block.connCid }
      out := feedOut { tag := v.tag, final := false, midx := v.midx } }

/-- R180 to R185: ESC_START dispatches on one byte and always leaves ESC_START. -/
def Obligations.FeedInEscStart : Prop :=
  ∀ (v : Byte) (s : State), s.block.fsm = .escStart →
    exec (.feed v) s = .next { s with
      block :=
        if v = 0x5A ∨ v = 0x48 then { s.block with escKind := v, fsm := .bulkData .cidp }
        else if v = 0x79 then
          { s.block with escKind := v, fsm := .udpBulkData .cidp, spSeen := false, tabSeen := false }
        else { s.block with fsm := .start }
      out := feedOut {
        tag := if v = 0x4F then .escOk else if v = 0x46 then .escFail else .none, final := false, midx := 0xFF } }

/-- R186, R192: the CID byte, whatever it is, replaces the escape buffer's contents. -/
def Obligations.FeedOfTheCid : Prop :=
  ∀ (v : Byte) (s : State) (next : Fsm),
    (s.block.fsm = .bulkData .cidp ∧ next = .bulkData .lenp) ∨
      (s.block.fsm = .udpBulkData .cidp ∧ next = .udpBulkData .hdrp) →
    exec (.feed v) s = .next { s with
      block := { s.block with escBuf := [(0, v)], escLen := 1, udpHdrLen := 0, escDone := false, fsm := next }
      out := feedOut { tag := .none, final := false, midx := 0xFF } }

/-- R187 to R190: a non-digit abandons the frame; the first three digits accumulate; the fourth ends an
empty frame or starts the payload. -/
def Obligations.FeedOfTheLength : Prop :=
  ∀ (v : Byte) (s : State) (tag : Tag) (payp : Fsm),
    (s.block.fsm = .bulkData .lenp ∧ tag = .bulkDataRx ∧ payp = .bulkData .payp) ∨
      (s.block.fsm = .udpBulkData .lenp ∧ tag = .udpBulkDataRx ∧ payp = .udpBulkData .payp) →
    let n := s.block.blen * 10 + (v.toNat - 0x30)
    let quietly (b : Block) : State := { s with block := b, out := feedOut { tag := .none, final := false, midx := 0xFF } }
    (v.toNat < 0x30 ∨ 0x39 < v.toNat →
      exec (.feed v) s = .next (quietly { s.block with fsm := .start, dcount := 0, blen := 0 })) ∧
    (0x30 ≤ v.toNat → v.toNat ≤ 0x39 → s.block.dcount < 3 →
      exec (.feed v) s = .next (quietly { s.block with blen := n, dcount := s.block.dcount + 1 })) ∧
    (0x30 ≤ v.toNat → v.toNat ≤ 0x39 → s.block.dcount = 3 → n = 0 →
      exec (.feed v) s = .next { s with
        block := { s.block with escDone := true, fsm := .start, dcount := 0, blen := 0 }
        out := feedOut { tag := tag, final := true, midx := 0xFF } }) ∧
    (0x30 ≤ v.toNat → v.toNat ≤ 0x39 → s.block.dcount = 3 → 1 ≤ n →
      exec (.feed v) s = .next (quietly { s.block with blen := n, dcount := 4, fsm := payp }))

/-- R191, R196: a payload byte is stored at `esc_len` whatever it is, no other byte of the buffer changes,
and the byte that takes the count to zero completes the frame. -/
def Obligations.FeedOfThePayload : Prop :=
  ∀ (v : Byte) (s : State) (tag : Tag), 1 ≤ s.block.blen →
    (s.block.fsm = .bulkData .payp ∧ tag = .bulkDataRx) ∨ (s.block.fsm = .udpBulkData .payp ∧ tag = .udpBulkDataRx) →
    ∃ t : State, exec (.feed v) s = .next t ∧
      t.out = feedOut { tag := tag, final := decide (s.block.blen = 1), midx := 0xFF } ∧
      t.block.escByte s.block.escLen = some v ∧
      (∀ i, i ≠ s.block.escLen → t.block.escByte i = s.block.escByte i) ∧
      t = { s with out := t.out, block := { s.block with
        escBuf := t.block.escBuf, escLen := s.block.escLen + 1, blen := s.block.blen - 1,
        escDone := if s.block.blen = 1 then true else s.block.escDone,
        fsm := if s.block.blen = 1 then .start else s.block.fsm,
        dcount := if s.block.blen = 1 then 0 else s.block.dcount } }

/-- R193 to R195: a UDP header byte is stored verbatim, the first tab after a space ends the header, and a
header of more than `UDP_HDR_MAX` bytes is a BUF_ERROR. -/
def Obligations.FeedOfTheUdpHeader : Prop :=
  ∀ (v : Byte) (s : State), s.block.fsm = .udpBulkData .hdrp →
    (s.block.udpHdrLen = Config.params.udpHdrMax →
      exec (.feed v) s = .next { s with
        block := { s.block with fsm := .start, dcount := 0, blen := 0 }
        out := feedOut { tag := .bufError, final := false, midx := 0xFF } }) ∧
    (s.block.udpHdrLen < Config.params.udpHdrMax →
      ∃ t : State, exec (.feed v) s = .next t ∧
        t.out = feedOut { tag := .none, final := false, midx := 0xFF } ∧
        t.block.escByte s.block.escLen = some v ∧
        (∀ i, i ≠ s.block.escLen → t.block.escByte i = s.block.escByte i) ∧
        t = { s with out := t.out, block := { s.block with
          escBuf := t.block.escBuf, escLen := s.block.escLen + 1, udpHdrLen := s.block.udpHdrLen + 1,
          spSeen := if v = 0x20 then true else s.block.spSeen,
          tabSeen := if v = 0x09 ∧ s.block.spSeen = true then true else s.block.tabSeen,
          fsm := if v = 0x09 ∧ s.block.spSeen = true then .udpBulkData .lenp else .udpBulkData .hdrp } })

/-! ### Laws of FEED -/

/-- R197: while payload bytes are due, the states and the outputs do not depend on the bytes' values. -/
def Obligations.PayloadContentDoesNotMatter : Prop :=
  ∀ (b : Block) (w w' : List Byte), b.bphase = .payp → w.length = w'.length → w.length ≤ b.blen →
    (feedAll Config.params w b).1.stat = (feedAll Config.params w' b).1.stat ∧
    (feedAll Config.params w b).2 = (feedAll Config.params w' b).2

/-- R66: what the escape buffer holds stays readable through every command but the FEED of the next frame's CID
byte, which sets `esc_len` to 1. -/
def Obligations.EscapeBufferLivesForTheFrame : Prop :=
  let cidDue (s : State) : Prop := s.block.fsm = .bulkData .cidp ∨ s.block.fsm = .udpBulkData .cidp
  (∀ (i : Instr) (s t : State) (k : Nat) (x : Byte), exec i s = .next t → ¬ ((∃ v, i = .feed v) ∧ cidDue s) →
    s.block.escByte k = some x → t.block.escByte k = some x) ∧
  ∀ (v : Byte) (s : State), cidDue s →
    ∃ t : State, exec (.feed v) s = .next t ∧ t.block.escLen = 1 ∧ t.block.escByte 0 = some v ∧
      ∀ k, 1 ≤ k → t.block.escByte k = none

/-- R65: a stored line stays readable through every command but the FEED that begins a new batch, which makes
every slot unreadable; an ESC in START does not begin one. -/
def Obligations.PoolLinesLiveForTheBatch : Prop :=
  ∀ (i : Instr) (s t : State), exec i s = .next t →
    let begins : Prop := ∃ v : Byte, i = .feed v ∧ s.block.fsm = .start ∧ v ≠ 0x0D ∧ v ≠ 0x0A ∧ v ≠ 0x1B
    (begins → t.block.poolCount = 0 ∧ (∀ slot, t.block.poolLength slot = none) ∧
      ∀ slot k, t.block.poolByte slot k = none) ∧
    (¬ begins →
      (∀ slot n, s.block.poolLength slot = some n → t.block.poolLength slot = some n) ∧
      ∀ slot k x, s.block.poolByte slot k = some x → t.block.poolByte slot k = some x)

/-- `conn_cid` keeps its value in every FEED that does not tag a line TCP_SERVER_CONNECT (R35, R165, R278). -/
def Obligations.ConnCidChangesOnlyByConnect : Prop :=
  ∀ (v : Byte) (s t : State), exec (.feed v) s = .next t → t.out.tag ≠ some .tcpServerConnect →
    t.block.connCid = s.block.connCid

/-- A 'Z' or 'H' frame fed from START is delivered whole: its CID and payload stand in the escape buffer, the
last byte alone is final, and the pool is as it was (R87, R181, R186 to R191). -/
def Obligations.BulkFrameIsDelivered : Prop :=
  ∀ (b : Block) (kind cid : Byte) (payload : List Byte), b.fsm = .start → kind = 0x5A ∨ kind = 0x48 →
    payload.length ≤ 9999 →
    let r := feedAll Config.params (bulkFrame kind cid payload) b
    r.1.st = .start ∧ r.1.bphase = .cidp ∧ r.1.escKind = kind ∧ r.1.escDone = true ∧ r.1.udpHdrLen = 0 ∧
    r.1.escLen = 1 + payload.length ∧ r.1.escCid = some cid ∧ r.1.escPayload = payload ∧
    r.1.escPayloadLen = payload.length ∧
    r.1.pool = b.pool ∧ r.1.poolLen = b.poolLen ∧ r.1.poolCount = b.poolCount ∧ r.1.poolOvf = b.poolOvf ∧
    r.1.connCid = b.connCid ∧
    r.2 = List.replicate (if payload = [] then 6 else 7) { tag := .none, final := false, midx := 0xFF } ++
      List.replicate (payload.length - 1) { tag := .bulkDataRx, final := false, midx := 0xFF } ++
      [{ tag := .bulkDataRx, final := true, midx := 0xFF }]

/-- A 'y' frame fed from START is delivered whole: the header up to its first tab after a space is stored
verbatim between the CID and the payload (R87, R182, R187 to R196). -/
def Obligations.UdpFrameIsDelivered : Prop :=
  ∀ (b : Block) (cid : Byte) (text payload : List Byte), b.fsm = .start → udpText text →
    text.length + 1 ≤ Config.params.udpHdrMax → payload.length ≤ 9999 →
    let hdr := text ++ [0x09]
    let r := feedAll Config.params (udpFrame cid hdr payload) b
    r.1.st = .start ∧ r.1.bphase = .cidp ∧ r.1.escKind = 0x79 ∧ r.1.escDone = true ∧ r.1.spSeen = true ∧
    r.1.tabSeen = true ∧ r.1.udpHdrLen = hdr.length ∧
    Table.upTo r.1.escBuf r.1.escLen = cid :: (hdr ++ payload) ∧ r.1.escPayload = payload ∧
    r.1.escPayloadLen = payload.length ∧
    r.1.pool = b.pool ∧ r.1.poolLen = b.poolLen ∧ r.1.poolCount = b.poolCount ∧ r.1.poolOvf = b.poolOvf ∧
    r.1.connCid = b.connCid ∧
    r.2 = List.replicate (hdr.length + if payload = [] then 6 else 7) { tag := .none, final := false, midx := 0xFF } ++
      List.replicate (payload.length - 1) { tag := .udpBulkDataRx, final := false, midx := 0xFF } ++
      [{ tag := .udpBulkDataRx, final := true, midx := 0xFF }]

/-- A text line fed from START is stored whole in slot 0 of a new batch and classified at its LF, which alone
emits a tag (R163, R165, R170, R171); an ESC in it is a line byte where `ESC_IN_RESPONSE` is LITERAL (R175). -/
def Obligations.TextLineIsDelivered : Prop :=
  ∀ (b : Block) (c : Byte) (cs : List Byte), b.fsm = .start → b.skip = false → c ≠ 0x0D → c ≠ 0x0A → c ≠ 0x1B →
    (∀ x ∈ cs, x ≠ 0x0A ∧ (x = 0x1B → Config.params.escInResponse = .literal)) → 1 + cs.length ≤ Config.params.lineMax →
    let text := c :: cs
    let v := classify Config.params text
    let r := feedAll Config.params (text ++ [0x0A]) b
    r.1.poolCount = 1 ∧ r.1.poolOvf = false ∧ r.1.poolLength 0 = some text.length ∧
    (∀ i, r.1.poolByte 0 i = text[i]?) ∧ r.1.accLen = 0 ∧
    r.1.st = (if v.tag = .unmatched then .response else .start) ∧
    r.1.escBuf = b.escBuf ∧ r.1.escLen = b.escLen ∧ r.1.escDone = b.escDone ∧
    r.2 = List.replicate text.length { tag := .none, final := false, midx := 0xFF } ++
      [{ tag := v.tag, final := false, midx := v.midx }]

/-! ### Invariants -/

/-- The invariant holds after reset (R40, R41). -/
def Obligations.InvariantAtReset : Prop :=
  State.reset.block.Inv Config.params

/-- Every step keeps the invariant, from every state that meets it (R41). -/
def Obligations.InvariantKeptByStep : Prop :=
  ∀ s t : State, s.block.Inv Config.params → step s = .next t → t.block.Inv Config.params

/-- R41: every reachable state satisfies the invariants the rule lists. -/
def Obligations.ReachableStatesMeetR41 : Prop :=
  ∀ s : State, Reachable s → s.block.R41 Config.params

/-- R67: where FEED stores a byte in the escape buffer, the index is below `ESC_BUF_SIZE`. -/
def Obligations.EscapeBufferNeverOverflows : Prop :=
  ∀ (v : Byte) (s t : State), s.block.Inv Config.params → exec (.feed v) s = .next t →
    t.block.escLen = s.block.escLen + 1 → s.block.escLen < Config.params.escBufSize

/-! ### Read-outs -/

/-- R220: PRD answers the byte of a stored line, zero-extended, and faults where the location holds no
value; nothing else changes. -/
def Obligations.PrdReadsAStoredByte : Prop :=
  ∀ (slot : Slot) (idx : Half) (s : State),
    (∀ (n : Nat) (line : Memory) (x : Byte), slot.toNat < s.block.poolCount →
      Table.read s.block.poolLen slot.toNat = some n → idx.toNat < n → Table.read s.block.pool slot.toNat = some line →
      Table.read line idx.toNat = some x →
      exec (.prd slot idx) s =
        .next { s with out := { Out.quiet with rdata := some (BitVec.ofNat 16 x.toNat), rdErr := some false } }) ∧
    (s.block.poolCount ≤ slot.toNat ∨
        (slot.toNat < s.block.poolCount ∧ ∃ n, Table.read s.block.poolLen slot.toNat = some n ∧ n ≤ idx.toNat) →
      exec (.prd slot idx) s = .fault (.readUnwritten { Out.quiet with rdErr := some true }))

/-- R221: PLEN answers the length of a stored line, and faults where the slot holds none. -/
def Obligations.PlenReadsALength : Prop :=
  ∀ (slot : Slot) (s : State),
    (∀ n : Nat, slot.toNat < s.block.poolCount → Table.read s.block.poolLen slot.toNat = some n →
      exec (.plen slot) s =
        .next { s with out := { Out.quiet with rdata := some (BitVec.ofNat 16 n), rdErr := some false } }) ∧
    (s.block.poolCount ≤ slot.toNat →
      exec (.plen slot) s = .fault (.readUnwritten { Out.quiet with rdErr := some true }))

/-- R223: ERD answers a byte of the escape buffer, zero-extended, and faults at and beyond `esc_len`. -/
def Obligations.ErdReadsTheEscapeBuffer : Prop :=
  ∀ (idx : Half) (s : State),
    (∀ x : Byte, idx.toNat < s.block.escLen → Table.read s.block.escBuf idx.toNat = some x →
      exec (.erd idx) s =
        .next { s with out := { Out.quiet with rdata := some (BitVec.ofNat 16 x.toNat), rdErr := some false } }) ∧
    (s.block.escLen ≤ idx.toNat →
      exec (.erd idx) s = .fault (.readUnwritten { Out.quiet with rdErr := some true }))

/-- In a state that meets the invariant, a read-out completes exactly below the lengths that `stat` and PLEN
give (R24, R28, R220 to R223), and PLEN's answer is the length itself. -/
def Obligations.ReadoutsCompleteBelowTheLengths : Prop :=
  ∀ (slot : Slot) (idx : Half) (s : State), s.block.Inv Config.params →
    ((∃ t, exec (.prd slot idx) s = .next t) ↔
      ∃ t n, exec (.plen slot) s = .next t ∧ t.out.rdata = some n ∧ idx.toNat < n.toNat) ∧
    ((∃ t, exec (.plen slot) s = .next t) ↔ slot.toNat < s.block.stat.poolCount) ∧
    ((∃ t, exec (.erd idx) s = .next t) ↔ idx.toNat < s.block.stat.escLen)

/-- R57: a read-out has no side effect; repeated, it answers the same. -/
def Obligations.ReadoutsRepeat : Prop :=
  ∀ (i : Instr) (s t : State), (∃ slot idx, i = .prd slot idx) ∨ (∃ slot, i = .plen slot) ∨ (∃ idx, i = .erd idx) →
    exec i s = .next t → t.block = s.block ∧ exec i t = .next t

/-! ### Notation -/

/-- R95: the pseudo-instructions expand to the listed commands; FEEDS's words are those of program P3. The counts
`n` of RDLINE and RDESC are operands by the model's choice (log entry 14, DEDUCED): R95 takes them from `rdata` and
`stat`. -/
def Obligations.PseudoInstructionsExpand : Prop :=
  (AsmLine.feeds "\\eZ20005HELLO".toList).expand.map (fun i => (encode i).1) =
    [0x00001B01, 0x00005A01, 0x00003201, 0x00003001, 0x00003001, 0x00003001, 0x00003501, 0x00004801, 0x00004501,
     0x00004C01, 0x00004C01, 0x00004F01] ∧
  (AsmLine.feeds "\\r\\n\\t".toList).expand = [.feed 0x0D, .feed 0x0A, .feed 0x09] ∧
  (∀ slot n, (AsmLine.rdline slot n).expand = .plen slot :: (List.range n).map fun i => .prd slot (BitVec.ofNat 16 i)) ∧
  (∀ n, (AsmLine.rdesc n).expand = (List.range n).map fun i => .erd (BitVec.ofNat 16 i))
end

