-- ==== Sys2Proof/Laws/State.lean ====
section
/-! SUPPORT. The small lemmas of the state: one for each field and each named update, so that no later proof unfolds one. -/

namespace Sys2Proof.Machine

/-! ### enterEsc -/

@[simp] theorem Block.enterEsc_fsm (b : Block) : (b.enterEsc).fsm = .escStart := rfl
@[simp] theorem Block.enterEsc_acc (b : Block) : (b.enterEsc).acc = b.acc := rfl
@[simp] theorem Block.enterEsc_accLen (b : Block) : (b.enterEsc).accLen = b.accLen := rfl
@[simp] theorem Block.enterEsc_skip (b : Block) : (b.enterEsc).skip = b.skip := rfl
@[simp] theorem Block.enterEsc_pool (b : Block) : (b.enterEsc).pool = b.pool := rfl
@[simp] theorem Block.enterEsc_poolLen (b : Block) : (b.enterEsc).poolLen = b.poolLen := rfl
@[simp] theorem Block.enterEsc_poolCount (b : Block) : (b.enterEsc).poolCount = b.poolCount := rfl
@[simp] theorem Block.enterEsc_poolOvf (b : Block) : (b.enterEsc).poolOvf = b.poolOvf := rfl
@[simp] theorem Block.enterEsc_escKind (b : Block) : (b.enterEsc).escKind = b.escKind := rfl
@[simp] theorem Block.enterEsc_escBuf (b : Block) : (b.enterEsc).escBuf = b.escBuf := rfl
@[simp] theorem Block.enterEsc_escLen (b : Block) : (b.enterEsc).escLen = b.escLen := rfl
@[simp] theorem Block.enterEsc_escDone (b : Block) : (b.enterEsc).escDone = b.escDone := rfl
@[simp] theorem Block.enterEsc_dcount (b : Block) : (b.enterEsc).dcount = 0 := rfl
@[simp] theorem Block.enterEsc_blen (b : Block) : (b.enterEsc).blen = 0 := rfl
@[simp] theorem Block.enterEsc_spSeen (b : Block) : (b.enterEsc).spSeen = false := rfl
@[simp] theorem Block.enterEsc_tabSeen (b : Block) : (b.enterEsc).tabSeen = false := rfl
@[simp] theorem Block.enterEsc_udpHdrLen (b : Block) : (b.enterEsc).udpHdrLen = b.udpHdrLen := rfl
@[simp] theorem Block.enterEsc_connCid (b : Block) : (b.enterEsc).connCid = b.connCid := rfl

/-! ### newBatch -/

@[simp] theorem Block.newBatch_fsm (b : Block) : (b.newBatch).fsm = b.fsm := rfl
@[simp] theorem Block.newBatch_acc (b : Block) : (b.newBatch).acc = b.acc := rfl
@[simp] theorem Block.newBatch_accLen (b : Block) : (b.newBatch).accLen = b.accLen := rfl
@[simp] theorem Block.newBatch_skip (b : Block) : (b.newBatch).skip = b.skip := rfl
@[simp] theorem Block.newBatch_pool (b : Block) : (b.newBatch).pool = [] := rfl
@[simp] theorem Block.newBatch_poolLen (b : Block) : (b.newBatch).poolLen = [] := rfl
@[simp] theorem Block.newBatch_poolCount (b : Block) : (b.newBatch).poolCount = 0 := rfl
@[simp] theorem Block.newBatch_poolOvf (b : Block) : (b.newBatch).poolOvf = false := rfl
@[simp] theorem Block.newBatch_escKind (b : Block) : (b.newBatch).escKind = b.escKind := rfl
@[simp] theorem Block.newBatch_escBuf (b : Block) : (b.newBatch).escBuf = b.escBuf := rfl
@[simp] theorem Block.newBatch_escLen (b : Block) : (b.newBatch).escLen = b.escLen := rfl
@[simp] theorem Block.newBatch_escDone (b : Block) : (b.newBatch).escDone = b.escDone := rfl
@[simp] theorem Block.newBatch_dcount (b : Block) : (b.newBatch).dcount = b.dcount := rfl
@[simp] theorem Block.newBatch_blen (b : Block) : (b.newBatch).blen = b.blen := rfl
@[simp] theorem Block.newBatch_spSeen (b : Block) : (b.newBatch).spSeen = b.spSeen := rfl
@[simp] theorem Block.newBatch_tabSeen (b : Block) : (b.newBatch).tabSeen = b.tabSeen := rfl
@[simp] theorem Block.newBatch_udpHdrLen (b : Block) : (b.newBatch).udpHdrLen = b.udpHdrLen := rfl
@[simp] theorem Block.newBatch_connCid (b : Block) : (b.newBatch).connCid = b.connCid := rfl

/-! ### leaveBulk -/

@[simp] theorem Block.leaveBulk_fsm (b : Block) : (b.leaveBulk).fsm = .start := rfl
@[simp] theorem Block.leaveBulk_acc (b : Block) : (b.leaveBulk).acc = b.acc := rfl
@[simp] theorem Block.leaveBulk_accLen (b : Block) : (b.leaveBulk).accLen = b.accLen := rfl
@[simp] theorem Block.leaveBulk_skip (b : Block) : (b.leaveBulk).skip = b.skip := rfl
@[simp] theorem Block.leaveBulk_pool (b : Block) : (b.leaveBulk).pool = b.pool := rfl
@[simp] theorem Block.leaveBulk_poolLen (b : Block) : (b.leaveBulk).poolLen = b.poolLen := rfl
@[simp] theorem Block.leaveBulk_poolCount (b : Block) : (b.leaveBulk).poolCount = b.poolCount := rfl
@[simp] theorem Block.leaveBulk_poolOvf (b : Block) : (b.leaveBulk).poolOvf = b.poolOvf := rfl
@[simp] theorem Block.leaveBulk_escKind (b : Block) : (b.leaveBulk).escKind = b.escKind := rfl
@[simp] theorem Block.leaveBulk_escBuf (b : Block) : (b.leaveBulk).escBuf = b.escBuf := rfl
@[simp] theorem Block.leaveBulk_escLen (b : Block) : (b.leaveBulk).escLen = b.escLen := rfl
@[simp] theorem Block.leaveBulk_escDone (b : Block) : (b.leaveBulk).escDone = b.escDone := rfl
@[simp] theorem Block.leaveBulk_dcount (b : Block) : (b.leaveBulk).dcount = 0 := rfl
@[simp] theorem Block.leaveBulk_blen (b : Block) : (b.leaveBulk).blen = 0 := rfl
@[simp] theorem Block.leaveBulk_spSeen (b : Block) : (b.leaveBulk).spSeen = b.spSeen := rfl
@[simp] theorem Block.leaveBulk_tabSeen (b : Block) : (b.leaveBulk).tabSeen = b.tabSeen := rfl
@[simp] theorem Block.leaveBulk_udpHdrLen (b : Block) : (b.leaveBulk).udpHdrLen = b.udpHdrLen := rfl
@[simp] theorem Block.leaveBulk_connCid (b : Block) : (b.leaveBulk).connCid = b.connCid := rfl

/-! ### storeEsc -/

@[simp] theorem Block.storeEsc_fsm (b : Block) (v : Byte) : (b.storeEsc v).fsm = b.fsm := rfl
@[simp] theorem Block.storeEsc_acc (b : Block) (v : Byte) : (b.storeEsc v).acc = b.acc := rfl
@[simp] theorem Block.storeEsc_accLen (b : Block) (v : Byte) : (b.storeEsc v).accLen = b.accLen := rfl
@[simp] theorem Block.storeEsc_skip (b : Block) (v : Byte) : (b.storeEsc v).skip = b.skip := rfl
@[simp] theorem Block.storeEsc_pool (b : Block) (v : Byte) : (b.storeEsc v).pool = b.pool := rfl
@[simp] theorem Block.storeEsc_poolLen (b : Block) (v : Byte) : (b.storeEsc v).poolLen = b.poolLen := rfl
@[simp] theorem Block.storeEsc_poolCount (b : Block) (v : Byte) : (b.storeEsc v).poolCount = b.poolCount := rfl
@[simp] theorem Block.storeEsc_poolOvf (b : Block) (v : Byte) : (b.storeEsc v).poolOvf = b.poolOvf := rfl
@[simp] theorem Block.storeEsc_escKind (b : Block) (v : Byte) : (b.storeEsc v).escKind = b.escKind := rfl
@[simp] theorem Block.storeEsc_escBuf (b : Block) (v : Byte) : (b.storeEsc v).escBuf = Table.write b.escBuf b.escLen v := rfl
@[simp] theorem Block.storeEsc_escLen (b : Block) (v : Byte) : (b.storeEsc v).escLen = b.escLen + 1 := rfl
@[simp] theorem Block.storeEsc_escDone (b : Block) (v : Byte) : (b.storeEsc v).escDone = b.escDone := rfl
@[simp] theorem Block.storeEsc_dcount (b : Block) (v : Byte) : (b.storeEsc v).dcount = b.dcount := rfl
@[simp] theorem Block.storeEsc_blen (b : Block) (v : Byte) : (b.storeEsc v).blen = b.blen := rfl
@[simp] theorem Block.storeEsc_spSeen (b : Block) (v : Byte) : (b.storeEsc v).spSeen = b.spSeen := rfl
@[simp] theorem Block.storeEsc_tabSeen (b : Block) (v : Byte) : (b.storeEsc v).tabSeen = b.tabSeen := rfl
@[simp] theorem Block.storeEsc_udpHdrLen (b : Block) (v : Byte) : (b.storeEsc v).udpHdrLen = b.udpHdrLen := rfl
@[simp] theorem Block.storeEsc_connCid (b : Block) (v : Byte) : (b.storeEsc v).connCid = b.connCid := rfl

/-! ### storeCid -/

@[simp] theorem Block.storeCid_fsm (b : Block) (v : Byte) : (b.storeCid v).fsm = b.fsm := rfl
@[simp] theorem Block.storeCid_acc (b : Block) (v : Byte) : (b.storeCid v).acc = b.acc := rfl
@[simp] theorem Block.storeCid_accLen (b : Block) (v : Byte) : (b.storeCid v).accLen = b.accLen := rfl
@[simp] theorem Block.storeCid_skip (b : Block) (v : Byte) : (b.storeCid v).skip = b.skip := rfl
@[simp] theorem Block.storeCid_pool (b : Block) (v : Byte) : (b.storeCid v).pool = b.pool := rfl
@[simp] theorem Block.storeCid_poolLen (b : Block) (v : Byte) : (b.storeCid v).poolLen = b.poolLen := rfl
@[simp] theorem Block.storeCid_poolCount (b : Block) (v : Byte) : (b.storeCid v).poolCount = b.poolCount := rfl
@[simp] theorem Block.storeCid_poolOvf (b : Block) (v : Byte) : (b.storeCid v).poolOvf = b.poolOvf := rfl
@[simp] theorem Block.storeCid_escKind (b : Block) (v : Byte) : (b.storeCid v).escKind = b.escKind := rfl
@[simp] theorem Block.storeCid_escBuf (b : Block) (v : Byte) : (b.storeCid v).escBuf = [(0, v)] := rfl
@[simp] theorem Block.storeCid_escLen (b : Block) (v : Byte) : (b.storeCid v).escLen = 1 := rfl
@[simp] theorem Block.storeCid_escDone (b : Block) (v : Byte) : (b.storeCid v).escDone = false := rfl
@[simp] theorem Block.storeCid_dcount (b : Block) (v : Byte) : (b.storeCid v).dcount = b.dcount := rfl
@[simp] theorem Block.storeCid_blen (b : Block) (v : Byte) : (b.storeCid v).blen = b.blen := rfl
@[simp] theorem Block.storeCid_spSeen (b : Block) (v : Byte) : (b.storeCid v).spSeen = b.spSeen := rfl
@[simp] theorem Block.storeCid_tabSeen (b : Block) (v : Byte) : (b.storeCid v).tabSeen = b.tabSeen := rfl
@[simp] theorem Block.storeCid_udpHdrLen (b : Block) (v : Byte) : (b.storeCid v).udpHdrLen = 0 := rfl
@[simp] theorem Block.storeCid_connCid (b : Block) (v : Byte) : (b.storeCid v).connCid = b.connCid := rfl

/-! ### storeHdr -/

@[simp] theorem Block.storeHdr_fsm (b : Block) (v : Byte) : (b.storeHdr v).fsm = b.fsm := rfl
@[simp] theorem Block.storeHdr_acc (b : Block) (v : Byte) : (b.storeHdr v).acc = b.acc := rfl
@[simp] theorem Block.storeHdr_accLen (b : Block) (v : Byte) : (b.storeHdr v).accLen = b.accLen := rfl
@[simp] theorem Block.storeHdr_skip (b : Block) (v : Byte) : (b.storeHdr v).skip = b.skip := rfl
@[simp] theorem Block.storeHdr_pool (b : Block) (v : Byte) : (b.storeHdr v).pool = b.pool := rfl
@[simp] theorem Block.storeHdr_poolLen (b : Block) (v : Byte) : (b.storeHdr v).poolLen = b.poolLen := rfl
@[simp] theorem Block.storeHdr_poolCount (b : Block) (v : Byte) : (b.storeHdr v).poolCount = b.poolCount := rfl
@[simp] theorem Block.storeHdr_poolOvf (b : Block) (v : Byte) : (b.storeHdr v).poolOvf = b.poolOvf := rfl
@[simp] theorem Block.storeHdr_escKind (b : Block) (v : Byte) : (b.storeHdr v).escKind = b.escKind := rfl
@[simp] theorem Block.storeHdr_escBuf (b : Block) (v : Byte) : (b.storeHdr v).escBuf = Table.write b.escBuf b.escLen v := rfl
@[simp] theorem Block.storeHdr_escLen (b : Block) (v : Byte) : (b.storeHdr v).escLen = b.escLen + 1 := rfl
@[simp] theorem Block.storeHdr_escDone (b : Block) (v : Byte) : (b.storeHdr v).escDone = b.escDone := rfl
@[simp] theorem Block.storeHdr_dcount (b : Block) (v : Byte) : (b.storeHdr v).dcount = b.dcount := rfl
@[simp] theorem Block.storeHdr_blen (b : Block) (v : Byte) : (b.storeHdr v).blen = b.blen := rfl
@[simp] theorem Block.storeHdr_spSeen (b : Block) (v : Byte) : (b.storeHdr v).spSeen = b.spSeen := rfl
@[simp] theorem Block.storeHdr_tabSeen (b : Block) (v : Byte) : (b.storeHdr v).tabSeen = b.tabSeen := rfl
@[simp] theorem Block.storeHdr_udpHdrLen (b : Block) (v : Byte) : (b.storeHdr v).udpHdrLen = b.udpHdrLen + 1 := rfl
@[simp] theorem Block.storeHdr_connCid (b : Block) (v : Byte) : (b.storeHdr v).connCid = b.connCid := rfl

/-! ### beginLine -/

@[simp] theorem Block.beginLine_fsm (b : Block) (v : Byte) : (b.beginLine v).fsm = b.fsm := rfl
@[simp] theorem Block.beginLine_acc (b : Block) (v : Byte) : (b.beginLine v).acc = [(0, v)] := rfl
@[simp] theorem Block.beginLine_accLen (b : Block) (v : Byte) : (b.beginLine v).accLen = 1 := rfl
@[simp] theorem Block.beginLine_skip (b : Block) (v : Byte) : (b.beginLine v).skip = b.skip := rfl
@[simp] theorem Block.beginLine_pool (b : Block) (v : Byte) : (b.beginLine v).pool = b.pool := rfl
@[simp] theorem Block.beginLine_poolLen (b : Block) (v : Byte) : (b.beginLine v).poolLen = b.poolLen := rfl
@[simp] theorem Block.beginLine_poolCount (b : Block) (v : Byte) : (b.beginLine v).poolCount = b.poolCount := rfl
@[simp] theorem Block.beginLine_poolOvf (b : Block) (v : Byte) : (b.beginLine v).poolOvf = b.poolOvf := rfl
@[simp] theorem Block.beginLine_escKind (b : Block) (v : Byte) : (b.beginLine v).escKind = b.escKind := rfl
@[simp] theorem Block.beginLine_escBuf (b : Block) (v : Byte) : (b.beginLine v).escBuf = b.escBuf := rfl
@[simp] theorem Block.beginLine_escLen (b : Block) (v : Byte) : (b.beginLine v).escLen = b.escLen := rfl
@[simp] theorem Block.beginLine_escDone (b : Block) (v : Byte) : (b.beginLine v).escDone = b.escDone := rfl
@[simp] theorem Block.beginLine_dcount (b : Block) (v : Byte) : (b.beginLine v).dcount = b.dcount := rfl
@[simp] theorem Block.beginLine_blen (b : Block) (v : Byte) : (b.beginLine v).blen = b.blen := rfl
@[simp] theorem Block.beginLine_spSeen (b : Block) (v : Byte) : (b.beginLine v).spSeen = b.spSeen := rfl
@[simp] theorem Block.beginLine_tabSeen (b : Block) (v : Byte) : (b.beginLine v).tabSeen = b.tabSeen := rfl
@[simp] theorem Block.beginLine_udpHdrLen (b : Block) (v : Byte) : (b.beginLine v).udpHdrLen = b.udpHdrLen := rfl
@[simp] theorem Block.beginLine_connCid (b : Block) (v : Byte) : (b.beginLine v).connCid = b.connCid := rfl

/-! ### appendLine -/

@[simp] theorem Block.appendLine_fsm (b : Block) (v : Byte) : (b.appendLine v).fsm = b.fsm := rfl
@[simp] theorem Block.appendLine_acc (b : Block) (v : Byte) : (b.appendLine v).acc = Table.write b.acc b.accLen v := rfl
@[simp] theorem Block.appendLine_accLen (b : Block) (v : Byte) : (b.appendLine v).accLen = b.accLen + 1 := rfl
@[simp] theorem Block.appendLine_skip (b : Block) (v : Byte) : (b.appendLine v).skip = b.skip := rfl
@[simp] theorem Block.appendLine_pool (b : Block) (v : Byte) : (b.appendLine v).pool = b.pool := rfl
@[simp] theorem Block.appendLine_poolLen (b : Block) (v : Byte) : (b.appendLine v).poolLen = b.poolLen := rfl
@[simp] theorem Block.appendLine_poolCount (b : Block) (v : Byte) : (b.appendLine v).poolCount = b.poolCount := rfl
@[simp] theorem Block.appendLine_poolOvf (b : Block) (v : Byte) : (b.appendLine v).poolOvf = b.poolOvf := rfl
@[simp] theorem Block.appendLine_escKind (b : Block) (v : Byte) : (b.appendLine v).escKind = b.escKind := rfl
@[simp] theorem Block.appendLine_escBuf (b : Block) (v : Byte) : (b.appendLine v).escBuf = b.escBuf := rfl
@[simp] theorem Block.appendLine_escLen (b : Block) (v : Byte) : (b.appendLine v).escLen = b.escLen := rfl
@[simp] theorem Block.appendLine_escDone (b : Block) (v : Byte) : (b.appendLine v).escDone = b.escDone := rfl
@[simp] theorem Block.appendLine_dcount (b : Block) (v : Byte) : (b.appendLine v).dcount = b.dcount := rfl
@[simp] theorem Block.appendLine_blen (b : Block) (v : Byte) : (b.appendLine v).blen = b.blen := rfl
@[simp] theorem Block.appendLine_spSeen (b : Block) (v : Byte) : (b.appendLine v).spSeen = b.spSeen := rfl
@[simp] theorem Block.appendLine_tabSeen (b : Block) (v : Byte) : (b.appendLine v).tabSeen = b.tabSeen := rfl
@[simp] theorem Block.appendLine_udpHdrLen (b : Block) (v : Byte) : (b.appendLine v).udpHdrLen = b.udpHdrLen := rfl
@[simp] theorem Block.appendLine_connCid (b : Block) (v : Byte) : (b.appendLine v).connCid = b.connCid := rfl

/-! ### dropLine -/

@[simp] theorem Block.dropLine_fsm (b : Block) : (b.dropLine).fsm = b.fsm := rfl
@[simp] theorem Block.dropLine_acc (b : Block) : (b.dropLine).acc = [] := rfl
@[simp] theorem Block.dropLine_accLen (b : Block) : (b.dropLine).accLen = 0 := rfl
@[simp] theorem Block.dropLine_skip (b : Block) : (b.dropLine).skip = b.skip := rfl
@[simp] theorem Block.dropLine_pool (b : Block) : (b.dropLine).pool = b.pool := rfl
@[simp] theorem Block.dropLine_poolLen (b : Block) : (b.dropLine).poolLen = b.poolLen := rfl
@[simp] theorem Block.dropLine_poolCount (b : Block) : (b.dropLine).poolCount = b.poolCount := rfl
@[simp] theorem Block.dropLine_poolOvf (b : Block) : (b.dropLine).poolOvf = b.poolOvf := rfl
@[simp] theorem Block.dropLine_escKind (b : Block) : (b.dropLine).escKind = b.escKind := rfl
@[simp] theorem Block.dropLine_escBuf (b : Block) : (b.dropLine).escBuf = b.escBuf := rfl
@[simp] theorem Block.dropLine_escLen (b : Block) : (b.dropLine).escLen = b.escLen := rfl
@[simp] theorem Block.dropLine_escDone (b : Block) : (b.dropLine).escDone = b.escDone := rfl
@[simp] theorem Block.dropLine_dcount (b : Block) : (b.dropLine).dcount = b.dcount := rfl
@[simp] theorem Block.dropLine_blen (b : Block) : (b.dropLine).blen = b.blen := rfl
@[simp] theorem Block.dropLine_spSeen (b : Block) : (b.dropLine).spSeen = b.spSeen := rfl
@[simp] theorem Block.dropLine_tabSeen (b : Block) : (b.dropLine).tabSeen = b.tabSeen := rfl
@[simp] theorem Block.dropLine_udpHdrLen (b : Block) : (b.dropLine).udpHdrLen = b.udpHdrLen := rfl
@[simp] theorem Block.dropLine_connCid (b : Block) : (b.dropLine).connCid = b.connCid := rfl

/-! ### storeLine -/

@[simp] theorem Block.storeLine_fsm (b : Block) :
    b.storeLine.fsm = b.fsm := by
  unfold Block.storeLine; split <;> rfl
@[simp] theorem Block.storeLine_acc (b : Block) :
    b.storeLine.acc = b.acc := by
  unfold Block.storeLine; split <;> rfl
@[simp] theorem Block.storeLine_accLen (b : Block) :
    b.storeLine.accLen = b.accLen := by
  unfold Block.storeLine; split <;> rfl
@[simp] theorem Block.storeLine_skip (b : Block) :
    b.storeLine.skip = b.skip := by
  unfold Block.storeLine; split <;> rfl
@[simp] theorem Block.storeLine_pool (b : Block) :
    b.storeLine.pool = if b.poolCount < 32 then Table.write b.pool b.poolCount (Table.ofList 0 b.line) else b.pool := by
  unfold Block.storeLine; split <;> rfl
@[simp] theorem Block.storeLine_poolLen (b : Block) :
    b.storeLine.poolLen = if b.poolCount < 32 then Table.write b.poolLen b.poolCount b.accLen else b.poolLen := by
  unfold Block.storeLine; split <;> rfl
@[simp] theorem Block.storeLine_poolCount (b : Block) :
    b.storeLine.poolCount = if b.poolCount < 32 then b.poolCount + 1 else b.poolCount := by
  unfold Block.storeLine; split <;> rfl
@[simp] theorem Block.storeLine_poolOvf (b : Block) :
    b.storeLine.poolOvf = if b.poolCount < 32 then b.poolOvf else true := by
  unfold Block.storeLine; split <;> rfl
@[simp] theorem Block.storeLine_escKind (b : Block) :
    b.storeLine.escKind = b.escKind := by
  unfold Block.storeLine; split <;> rfl
@[simp] theorem Block.storeLine_escBuf (b : Block) :
    b.storeLine.escBuf = b.escBuf := by
  unfold Block.storeLine; split <;> rfl
@[simp] theorem Block.storeLine_escLen (b : Block) :
    b.storeLine.escLen = b.escLen := by
  unfold Block.storeLine; split <;> rfl
@[simp] theorem Block.storeLine_escDone (b : Block) :
    b.storeLine.escDone = b.escDone := by
  unfold Block.storeLine; split <;> rfl
@[simp] theorem Block.storeLine_dcount (b : Block) :
    b.storeLine.dcount = b.dcount := by
  unfold Block.storeLine; split <;> rfl
@[simp] theorem Block.storeLine_blen (b : Block) :
    b.storeLine.blen = b.blen := by
  unfold Block.storeLine; split <;> rfl
@[simp] theorem Block.storeLine_spSeen (b : Block) :
    b.storeLine.spSeen = b.spSeen := by
  unfold Block.storeLine; split <;> rfl
@[simp] theorem Block.storeLine_tabSeen (b : Block) :
    b.storeLine.tabSeen = b.tabSeen := by
  unfold Block.storeLine; split <;> rfl
@[simp] theorem Block.storeLine_udpHdrLen (b : Block) :
    b.storeLine.udpHdrLen = b.udpHdrLen := by
  unfold Block.storeLine; split <;> rfl
@[simp] theorem Block.storeLine_connCid (b : Block) :
    b.storeLine.connCid = b.connCid := by
  unfold Block.storeLine; split <;> rfl

/-! ### Steps of the machine -/

@[simp] theorem State.raiseCmdError_block (s : State) : s.raiseCmdError.block = s.block := rfl
@[simp] theorem State.raiseCmdError_out (s : State) : s.raiseCmdError.out = { Out.quiet with cmdErr := true } := rfl
@[simp] theorem State.raiseCmdError_inputs (s : State) : s.raiseCmdError.inputs = s.inputs := rfl
@[simp] theorem State.raiseCmdError_started (s : State) : s.raiseCmdError.started = s.started := rfl
@[simp] theorem State.resetStep_block (s : State) : s.resetStep.block = Block.reset := rfl
@[simp] theorem State.resetStep_out (s : State) : s.resetStep.out = Out.quiet := rfl
@[simp] theorem State.resetStep_inputs (s : State) : s.resetStep.inputs = s.inputs := rfl
@[simp] theorem State.resetStep_started (s : State) : s.resetStep.started = true := rfl

@[simp] theorem State.reset_block : State.reset.block = Block.reset := rfl
@[simp] theorem State.reset_out : State.reset.out = Out.quiet := rfl
@[simp] theorem State.reset_inputs : State.reset.inputs = [] := rfl
@[simp] theorem State.reset_started : State.reset.started = true := rfl

@[simp] theorem State.withFetchWord_block (s : State) (nbits w : Nat) :
    (s.withFetchWord nbits w).block = s.block := rfl
@[simp] theorem State.withFetchWord_out (s : State) (nbits w : Nat) :
    (s.withFetchWord nbits w).out = s.out := rfl
@[simp] theorem State.withFetchWord_inputs (s : State) (nbits w : Nat) :
    (s.withFetchWord nbits w).inputs = ⟨false, tableCmd nbits w, tableDin nbits w⟩ :: s.inputs := rfl
@[simp] theorem State.withFetchWord_started (s : State) (nbits w : Nat) :
    (s.withFetchWord nbits w).started = true := rfl

end Sys2Proof.Machine
end

