-- ==== Sys2Proof/Laws/Array.lean ====
section
/-! SUPPORT. What reading and writing an array do, and that every operation on one keeps its canonical form. -/

namespace Sys2Proof.Machine

variable {α : Type}

@[simp] theorem Table.read_nil (i : Nat) : Table.read ([] : Table α) i = none := rfl

theorem Table.read_cons (k : Nat) (v : α) (t : Table α) (i : Nat) :
    Table.read ((k, v) :: t) i = if k = i then some v else Table.read t i := rfl

@[simp] theorem Table.keys_nil : Table.keys ([] : Table α) = [] := rfl

@[simp] theorem Table.keys_cons (c : Nat × α) (t : Table α) : Table.keys (c :: t) = c.1 :: Table.keys t := rfl

@[simp] theorem Table.write_nil (i : Nat) (v : α) : Table.write ([] : Table α) i v = [(i, v)] := rfl

/-- Read after write to the same index. -/
@[simp] theorem Table.read_write_same (t : Table α) (i : Nat) (v : α) :
    Table.read (Table.write t i v) i = some v := by
  induction t with
  | nil => simp [Table.read]
  | cons c t ih =>
    obtain ⟨k, u⟩ := c
    unfold Table.write
    split
    · simp [Table.read]
    · split
      · simp [Table.read]
      · have h : k ≠ i := by omega
        simp [Table.read, h, ih]

/-- A write leaves every other index alone. -/
theorem Table.read_write_other (t : Table α) {i j : Nat} (v : α) (h : j ≠ i) :
    Table.read (Table.write t i v) j = Table.read t j := by
  have hij : i ≠ j := Ne.symm h
  induction t with
  | nil => simp [Table.read, hij]
  | cons c t ih =>
    obtain ⟨k, u⟩ := c
    unfold Table.write
    split
    · simp [Table.read, hij]
    · split
      · next h2 => subst h2; simp [Table.read, hij]
      · simp [Table.read, ih]

theorem Table.read_write (t : Table α) (i j : Nat) (v : α) :
    Table.read (Table.write t i v) j = if j = i then some v else Table.read t j := by
  split
  · next h => subst h; exact Table.read_write_same t j v
  · next h => exact Table.read_write_other t v h

/-- An index reads as a value exactly where it is listed. -/
theorem Table.read_isSome_iff (t : Table α) (i : Nat) : (Table.read t i).isSome = true ↔ i ∈ Table.keys t := by
  induction t with
  | nil => simp
  | cons c t ih =>
    obtain ⟨k, u⟩ := c
    rw [Table.read_cons, Table.keys_cons, List.mem_cons]
    split
    · next h => simp [h]
    · next h => simp [ih, Ne.symm h]

theorem Table.read_eq_none_iff (t : Table α) (i : Nat) : Table.read t i = none ↔ i ∉ Table.keys t := by
  rw [← Table.read_isSome_iff, Bool.not_eq_true, Option.isSome_eq_false_iff, Option.isNone_iff_eq_none]

/-! ### The canonical form -/

theorem Table.wf_nil : Table.wf ([] : Table α) := List.Pairwise.nil

theorem Table.mem_keys_write (t : Table α) (i : Nat) (v : α) (k : Nat) :
    k ∈ Table.keys (Table.write t i v) ↔ k = i ∨ k ∈ Table.keys t := by
  rw [← Table.read_isSome_iff, ← Table.read_isSome_iff, Table.read_write]
  split
  · next h => simp [h]
  · next h => simp [h]

/-- A write keeps the indices strictly rising. -/
theorem Table.wf_write (t : Table α) (i : Nat) (v : α) (h : Table.wf t) : Table.wf (Table.write t i v) := by
  induction t with
  | nil => exact List.pairwise_singleton _ i
  | cons c t ih =>
    obtain ⟨k, u⟩ := c
    rw [Table.wf, Table.keys_cons, List.pairwise_cons] at h
    obtain ⟨hk, ht⟩ := h
    unfold Table.write
    split
    · next hlt =>
      simp only [Table.wf, Table.keys_cons, List.pairwise_cons, List.mem_cons]
      refine ⟨?_, hk, ht⟩
      rintro j (rfl | hj)
      · exact hlt
      · exact Nat.lt_trans hlt (hk j hj)
    · split
      · next hlt heq =>
        subst heq
        exact List.pairwise_cons.mpr ⟨hk, ht⟩
      · next hlt hne =>
        refine List.pairwise_cons.mpr ⟨?_, ih ht⟩
        intro j hj
        rcases (Table.mem_keys_write t i v j).mp hj with rfl | hj
        · simp only; omega
        · exact hk j hj

theorem Table.keys_ofList (k : Nat) (vs : List α) : Table.keys (Table.ofList k vs) = List.range' k vs.length := by
  induction vs generalizing k with
  | nil => rfl
  | cons v vs ih => simp [Table.ofList, ih, List.range'_succ]

/-- The copy of a line holds values exactly below its length. -/
theorem Table.filled_ofList (vs : List α) : Table.filled (Table.ofList 0 vs) vs.length := by
  rw [Table.filled, Table.keys_ofList, List.range_eq_range']

theorem Table.wf_of_filled {t : Table α} {n : Nat} (h : Table.filled t n) : Table.wf t := by
  rw [Table.wf, h]
  exact List.pairwise_lt_range

theorem Table.wf_ofList (vs : List α) : Table.wf (Table.ofList 0 vs) :=
  Table.wf_of_filled (Table.filled_ofList vs)

theorem Table.filled_nil : Table.filled ([] : Table α) 0 := rfl

theorem Table.filled_single (v : α) : Table.filled [(0, v)] 1 := rfl

theorem Table.write_end (t : Table α) (i : Nat) (v : α) (h : ∀ k ∈ Table.keys t, k < i) :
    Table.write t i v = t ++ [(i, v)] := by
  induction t with
  | nil => rfl
  | cons c t ih =>
    obtain ⟨k, u⟩ := c
    have hk : k < i := h k (by simp)
    have h1 : ¬ i < k := by omega
    have h2 : ¬ i = k := by omega
    rw [Table.write, if_neg h1, if_neg h2, ih fun j hj => h j (by simp [hj])]
    rfl

/-- Writing at the length extends an array by one cell. -/
theorem Table.write_filled {t : Table α} {n : Nat} (v : α) (h : Table.filled t n) :
    Table.write t n v = t ++ [(n, v)] :=
  Table.write_end t n v (by rw [h]; simp)

theorem Table.filled_write {t : Table α} {n : Nat} (v : α) (h : Table.filled t n) :
    Table.filled (Table.write t n v) (n + 1) := by
  rw [Table.write_filled v h, Table.filled, List.range_succ, ← h]
  simp [Table.keys]

theorem Table.filled_isSome {t : Table α} {n : Nat} (h : Table.filled t n) (i : Nat) :
    (Table.read t i).isSome = true ↔ i < n := by
  rw [Table.read_isSome_iff, h, List.mem_range]

theorem Table.filled_read {t : Table α} {n i : Nat} (h : Table.filled t n) (hi : i < n) :
    ∃ v, Table.read t i = some v :=
  Option.isSome_iff_exists.mp ((Table.filled_isSome h i).mpr hi)

theorem Table.filled_read_none {t : Table α} {n i : Nat} (h : Table.filled t n) (hi : n ≤ i) :
    Table.read t i = none := by
  rw [Table.read_eq_none_iff, h, List.mem_range]
  omega

/-! ### The values of an array -/

theorem Table.read_ofList (k : Nat) (vs : List α) (i : Nat) :
    Table.read (Table.ofList k vs) (k + i) = vs[i]? := by
  induction vs generalizing k i with
  | nil => simp [Table.ofList]
  | cons v vs ih =>
    rw [Table.ofList, Table.read_cons]
    cases i with
    | zero => simp
    | succ i =>
      have h : ¬ k = k + (i + 1) := by omega
      rw [if_neg h, List.getElem?_cons_succ, ← ih (k + 1) i]
      congr 1
      omega

theorem Table.read_append (t u : Table α) (i : Nat) :
    Table.read (t ++ u) i = (Table.read t i).or (Table.read u i) := by
  induction t with
  | nil => simp
  | cons c t ih =>
    obtain ⟨k, v⟩ := c
    rw [List.cons_append, Table.read_cons, Table.read_cons]
    split
    · rfl
    · exact ih

@[simp] theorem Table.upTo_zero (t : Table α) : Table.upTo t 0 = [] := rfl

theorem Table.upTo_succ (t : Table α) (n : Nat) :
    Table.upTo t (n + 1) = Table.upTo t n ++ (Table.read t n).toList := by
  rw [Table.upTo, List.range_succ, List.filterMap_append, ← Table.upTo]
  cases h : Table.read t n <;> simp [h]

theorem Table.upTo_congr {t u : Table α} {n : Nat} (h : ∀ i, i < n → Table.read t i = Table.read u i) :
    Table.upTo t n = Table.upTo u n := by
  induction n with
  | zero => rfl
  | succ n ih =>
    rw [Table.upTo_succ, Table.upTo_succ, ih fun i hi => h i (by omega), h n (by omega)]

/-- A write at the length appends one value. -/
theorem Table.upTo_write (t : Table α) (n : Nat) (v : α) :
    Table.upTo (Table.write t n v) (n + 1) = Table.upTo t n ++ [v] := by
  rw [Table.upTo_succ, Table.read_write_same]
  congr 1
  exact Table.upTo_congr fun i hi => Table.read_write_other t v (by omega)

theorem Table.filled_upTo_length {t : Table α} {n : Nat} (h : ∀ i, i < n → (Table.read t i).isSome = true) :
    (Table.upTo t n).length = n := by
  induction n with
  | zero => rfl
  | succ n ih =>
    obtain ⟨v, hv⟩ := Option.isSome_iff_exists.mp (h n (by omega))
    rw [Table.upTo_succ, hv, List.length_append, ih fun i hi => h i (by omega)]
    rfl

theorem Table.length_upTo {t : Table α} {n : Nat} (h : Table.filled t n) : (Table.upTo t n).length = n :=
  Table.filled_upTo_length fun i hi => (Table.filled_isSome h i).mpr hi

theorem Table.getElem?_upTo {t : Table α} {n : Nat} (h : ∀ i, i < n → (Table.read t i).isSome = true)
    {i : Nat} (hi : i < n) : (Table.upTo t n)[i]? = Table.read t i := by
  induction n with
  | zero => omega
  | succ n ih =>
    have hl : (Table.upTo t n).length = n := Table.filled_upTo_length fun j hj => h j (by omega)
    rw [Table.upTo_succ]
    by_cases hin : i < n
    · rw [List.getElem?_append_left (by omega), ih (fun j hj => h j (by omega)) hin]
    · have : i = n := by omega
      subst this
      rw [List.getElem?_append_right (by omega), hl, Nat.sub_self]
      obtain ⟨v, hv⟩ := Option.isSome_iff_exists.mp (h i (by omega))
      rw [hv]
      rfl

/-! ### The block's arrays -/

theorem Block.line_appendLine (b : Block) (v : Byte) : (b.appendLine v).line = b.line ++ [v] :=
  Table.upTo_write b.acc b.accLen v

theorem Block.line_dropLine (b : Block) : b.dropLine.line = [] := rfl

theorem Block.line_beginLine (b : Block) (v : Byte) : (b.beginLine v).line = [v] := rfl

/-- Storing a byte in the escape buffer adds it at `esc_len` and leaves the bytes below alone. -/
theorem Block.escByte_storeEsc (b : Block) (v : Byte) (i : Nat) :
    (b.storeEsc v).escByte i = if i = b.escLen then some v else b.escByte i := by
  simp only [Block.escByte, Block.storeEsc_escLen, Block.storeEsc_escBuf, Table.read_write]
  by_cases h : i = b.escLen
  · subst h; simp
  · have h1 : i < b.escLen + 1 ↔ i < b.escLen := by omega
    simp [h, h1]

/-- Every operation on the block's arrays keeps them canonical. -/
theorem Block.wf_storeEsc (b : Block) (v : Byte) (h : Memory.wf b.escBuf) : Memory.wf (b.storeEsc v).escBuf :=
  Table.wf_write b.escBuf b.escLen v h

theorem Block.wf_storeCid (b : Block) (v : Byte) : Memory.wf (b.storeCid v).escBuf :=
  Table.wf_write [] 0 v Table.wf_nil

theorem Block.wf_appendLine (b : Block) (v : Byte) (h : Memory.wf b.acc) : Memory.wf (b.appendLine v).acc :=
  Table.wf_write b.acc b.accLen v h

theorem Block.wf_beginLine (b : Block) (v : Byte) : Memory.wf (b.beginLine v).acc :=
  Table.wf_write [] 0 v Table.wf_nil

theorem Block.wf_storeLine (b : Block) (h : Table.wf b.pool) (hl : Table.wf b.poolLen) :
    Table.wf b.storeLine.pool ∧ Table.wf b.storeLine.poolLen := by
  rw [Block.storeLine_pool, Block.storeLine_poolLen]
  split
  · exact ⟨Table.wf_write _ _ _ h, Table.wf_write _ _ _ hl⟩
  · exact ⟨h, hl⟩

theorem Block.wf_reset :
    Memory.wf Block.reset.acc ∧ Table.wf Block.reset.pool ∧ Table.wf Block.reset.poolLen ∧
      Memory.wf Block.reset.escBuf := by
  decide

end Sys2Proof.Machine
end

