-- ==== Sys2Proof/Laws/Classifier.lean ====
section
/-! SUPPORT. What each operation of the classifier answers, said once. -/

namespace Sys2Proof.Machine

theorem startsWith_iff_prefix (line m : List Byte) : startsWith line m = true ↔ m <+: line := by
  simp [startsWith]

theorem contains_nil (m : List Byte) : contains [] m = startsWith [] m := rfl

theorem contains_cons (c : Byte) (cs m : List Byte) :
    contains (c :: cs) m = (startsWith (c :: cs) m || contains cs m) := rfl

/-- Where the first occurrence of a marker ends: it answers with what follows an occurrence, and none
begins earlier. -/
theorem afterFirst_spec (m line rest : List Byte) (h : afterFirst m line = some rest) :
    ∃ before, line = before ++ m ++ rest ∧
      ∀ before' rest', line = before' ++ m ++ rest' → before.length ≤ before'.length := by
  induction line with
  | nil =>
    rw [afterFirst] at h
    split at h
    · next hp =>
      rw [startsWith_iff_prefix, List.prefix_nil] at hp
      cases h
      exact ⟨[], by simp [hp], by simp⟩
    · cases h
  | cons c cs ih =>
    rw [afterFirst] at h
    split at h
    · next hp =>
      rw [startsWith_iff_prefix] at hp
      obtain ⟨r, hr⟩ := hp
      cases h
      exact ⟨[], by simp [← hr], by simp⟩
    · next hp =>
      obtain ⟨before, hb, hmin⟩ := ih h
      refine ⟨c :: before, by simp [hb], ?_⟩
      intro before' rest' hl
      cases before' with
      | nil =>
        exfalso
        apply hp
        rw [startsWith_iff_prefix]
        exact ⟨rest', by simpa using hl.symm⟩
      | cons d before' =>
        have := hmin before' rest' (by simpa using (List.cons.inj hl).2)
        simpa using this

/-- It answers none exactly where the marker does not occur. -/
theorem afterFirst_eq_none_iff (m line : List Byte) : afterFirst m line = none ↔ contains line m = false := by
  induction line with
  | nil => rw [afterFirst, contains_nil]; cases startsWith [] m <;> simp
  | cons c cs ih =>
    rw [afterFirst, contains_cons]
    cases startsWith (c :: cs) m <;> simp [ih]

/-- A search of the table finds an entry whose marker the line contains, and no entry before it. -/
theorem firstMatch_some (line : List Byte) (k n : Nat) (t : Tag) (table : List (List Byte × Tag))
    (h : firstMatch line k table = some (t, n)) :
    ∃ j m, n = k + j ∧ table[j]? = some (m, t) ∧ contains line m = true ∧
      ∀ i m' t', i < j → table[i]? = some (m', t') → contains line m' = false := by
  induction table generalizing k with
  | nil => cases h
  | cons e table ih =>
    obtain ⟨m, u⟩ := e
    rw [firstMatch] at h
    split at h
    · next hc =>
      cases h
      exact ⟨0, m, rfl, rfl, hc, by simp⟩
    · next hc =>
      obtain ⟨j, m', hn, he, hcm, hmin⟩ := ih (k + 1) h
      refine ⟨j + 1, m', by omega, he, hcm, ?_⟩
      intro i m'' t'' hi hi'
      cases i with
      | zero => cases hi'; simpa using hc
      | succ i => exact hmin i m'' t'' (by omega) hi'

/-- A search of the table fails exactly where the line contains no marker of it. -/
theorem firstMatch_eq_none_iff (line : List Byte) (k : Nat) (table : List (List Byte × Tag)) :
    firstMatch line k table = none ↔ ∀ e ∈ table, contains line e.1 = false := by
  induction table generalizing k with
  | nil => simp [firstMatch]
  | cons e table ih =>
    obtain ⟨m, u⟩ := e
    rw [firstMatch]
    cases hc : contains line m <;> simp [hc, ih]

theorem tokensFrom_nil (token : List Byte) : tokensFrom token [] = if token.isEmpty then [] else [token] := rfl

theorem tokensFrom_space (token cs : List Byte) :
    tokensFrom token (byteSP :: cs) = if token.isEmpty then tokensFrom [] cs else token :: tokensFrom [] cs := by
  rw [tokensFrom, if_pos rfl]

theorem tokensFrom_other (token cs : List Byte) (c : Byte) (h : c ≠ byteSP) :
    tokensFrom token (c :: cs) = tokensFrom (token ++ [c]) cs := by
  rw [tokensFrom, if_neg h]

/-- No token is empty (R136). -/
theorem tokensFrom_ne_nil (token cs : List Byte) : ∀ t ∈ tokensFrom token cs, t ≠ [] := by
  induction cs generalizing token with
  | nil =>
    rw [tokensFrom_nil]
    split
    · simp
    · next h => simpa using h
  | cons c cs ih =>
    by_cases hc : c = byteSP
    · subst hc
      rw [tokensFrom_space]
      split
      · exact ih []
      · next h =>
        intro t ht
        rcases List.mem_cons.mp ht with rfl | ht
        · simpa using h
        · exact ih [] t ht
    · rw [tokensFrom_other _ _ _ hc]
      exact ih _

/-- The tags of the marker table (R131). -/
theorem markers_tags (p : Params) : ∀ e ∈ markers p,
    e.2 = .ok ∨ e.2 = .errSocketFailure ∨ e.2 = .errIpConfigFail ∨ e.2 = .error ∨ e.2 = .invalidInput ∨
      e.2 = .invalidCid ∨ e.2 = .disassociated ∨ e.2 = .boot ∨ e.2 = .disconnect ∨ e.2 = .wake := by
  intro e he
  simp only [markers, List.mem_append, List.mem_map, List.mem_cons, List.not_mem_nil, or_false] at he
  rcases he with ((he | ⟨m, -, rfl⟩) | rfl) | ⟨m, -, rfl⟩
  · rcases he with rfl | rfl | rfl | rfl | rfl | rfl | rfl | rfl <;> simp
  all_goals simp

/-- A line of at most one byte contains a nonempty marker exactly where it is that marker. -/
theorem contains_short (line m : List Byte) (hl : line.length ≤ 1) (hm : m ≠ []) :
    contains line m = true ↔ m = line := by
  match line, m, hl, hm with
  | [], _ :: _, _, _ => simp [contains, startsWith]
  | [c], [d], _, _ => simp [contains, startsWith]
  | [c], d :: e :: m, _, _ => simp [contains, startsWith]

/-- R140 (i) of a line of at most one byte, as the table has it: it matches nothing where no marker is that line. -/
theorem classify_short (p : Params) (line : List Byte) (hl : line.length ≤ 1)
    (hm : ∀ m ∈ p.bootMarkers ++ p.wakeMarkers, m ≠ [] ∧ m ≠ line) : classify p line = .unmatched := by
  have fixed : ∀ m : List Byte, 2 ≤ m.length → contains line m = false := fun m h => by
    have h0 : m ≠ [] := List.ne_nil_of_length_pos (by omega)
    rw [Bool.eq_false_iff, ne_eq, contains_short line m hl h0]
    rintro rfl
    omega
  have none_matches : firstMatch line 0 (markers p) = none := by
    rw [firstMatch_eq_none_iff]
    intro e he
    simp only [markers, List.mem_append, List.mem_map, List.mem_singleton] at he
    rcases he with ((he | ⟨m, h, rfl⟩) | rfl) | ⟨m, h, rfl⟩
    · refine fixed e.1 ?_
      revert he
      revert e
      decide
    · have hm := hm m (List.mem_append_left _ h)
      rw [Bool.eq_false_iff, ne_eq, contains_short line m hl hm.1]
      exact hm.2
    · exact fixed _ (by decide)
    · have hm := hm m (List.mem_append_right _ h)
      rw [Bool.eq_false_iff, ne_eq, contains_short line m hl hm.1]
      exact hm.2
  have no_echo : startsWith line echoPrefix = false := by
    rw [Bool.eq_false_iff, ne_eq, startsWith_iff_prefix]
    intro h
    have : 3 ≤ line.length := h.length_le
    omega
  have no_connect : afterFirst connectPattern line = none := by
    rw [afterFirst_eq_none_iff]
    exact fixed _ (by decide)
  simp [classify, none_matches, no_echo, connectRule, no_connect]

/-- R140 (i): the empty line is UNMATCHED, whatever nonempty markers there are. -/
theorem classify_nil (p : Params) (hp : p.Valid) : classify p [] = .unmatched :=
  classify_short p [] (by decide) fun m h => by
    have := (hp.2.2.2.2.2.2.2.2.1 m h).1
    exact ⟨this, this⟩

/-- R140 (i): "\r" is UNMATCHED where no marker is that line; where one is, log entry 21. -/
theorem classify_cr (p : Params) (hp : p.Valid) (h : [byteCR] ∉ p.bootMarkers ++ p.wakeMarkers) :
    classify p [byteCR] = .unmatched :=
  classify_short p [byteCR] (by decide) fun m hm =>
    ⟨(hp.2.2.2.2.2.2.2.2.1 m hm).1, fun e => h (e ▸ hm)⟩

/-- What the CONNECT rule can answer (R135 to R138). -/
theorem connectRule_cases (line : List Byte) :
    connectRule line = .unmatched ∨
      ∃ rest t0 c t1 t2 t3 more, afterFirst connectPattern line = some rest ∧
        tokens rest = t0 :: (c :: t1) :: t2 :: t3 :: more ∧
        connectRule line = { tag := .tcpServerConnect, midx := 0xF1, cid := some c } := by
  unfold connectRule
  split
  · exact .inl rfl
  · next rest hr =>
    split
    · next t0 c t1 t2 t3 more ht => exact .inr ⟨rest, t0, c, t1, t2, t3, more, hr, ht, rfl⟩
    · exact .inl rfl

/-- What the classifier can answer (R133). -/
theorem classify_cases (p : Params) (line : List Byte) :
    (∃ t k, firstMatch line 0 (markers p) = some (t, k) ∧
      classify p line = { tag := t, midx := BitVec.ofNat 8 k, cid := none }) ∨
    (firstMatch line 0 (markers p) = none ∧ startsWith line echoPrefix = true ∧
      classify p line = { tag := .unmatched, midx := 0xF0, cid := none }) ∨
    (firstMatch line 0 (markers p) = none ∧ startsWith line echoPrefix = false ∧
      classify p line = connectRule line) := by
  unfold classify
  cases h : firstMatch line 0 (markers p) with
  | some e => exact .inl ⟨e.1, e.2, rfl, rfl⟩
  | none => cases hs : startsWith line echoPrefix <;> simp

end Sys2Proof.Machine
end

