-- ==== Sys2Proof/Laws/Config.lean ====
section
/-! SUPPORT. The machine's parameters meet the constraints of 00_scope.md R6, whatever they are. -/

namespace Sys2Proof

theorem vectors_valid : Config.vectors.Valid := by decide

theorem params_valid : Config.params.Valid := by
  unfold Config.params
  split
  · assumption
  · exact vectors_valid

theorem params_opCodes_nodup : Config.params.opCodes.Nodup := params_valid.1

theorem params_maxTxLen : Config.params.maxTxLen = 1400 ∨ Config.params.maxTxLen = 1500 := params_valid.2.1

theorem params_maxRxLen : Config.params.maxRxLen = 1400 ∨ Config.params.maxRxLen = 1500 := params_valid.2.2.1

theorem params_moreByte :
    Config.params.moreByte = 2 ∨ Config.params.moreByte = 3 ∨ Config.params.moreByte = 4 :=
  params_valid.2.2.2.1

theorem params_moreMask : Config.params.moreMask ≠ 0 := params_valid.2.2.2.2.1

theorem params_lineMax : 21 ≤ Config.params.lineMax ∧ Config.params.lineMax ≤ 65535 :=
  params_valid.2.2.2.2.2.1

theorem params_udpHdrMax : 2 ≤ Config.params.udpHdrMax := params_valid.2.2.2.2.2.2.1

theorem params_escBufSize :
    1 + Config.params.udpHdrMax + 9999 ≤ Config.params.escBufSize ∧ Config.params.escBufSize ≤ 65535 :=
  params_valid.2.2.2.2.2.2.2.1

theorem params_markers :
    ∀ m ∈ Config.params.bootMarkers ++ Config.params.wakeMarkers, m ≠ [] ∧ m.length ≤ Config.params.lineMax :=
  params_valid.2.2.2.2.2.2.2.2.1

theorem params_marker_count :
    9 + Config.params.bootMarkers.length + Config.params.wakeMarkers.length ≤ 240 :=
  params_valid.2.2.2.2.2.2.2.2.2

end Sys2Proof
end

