-- ==== Sys2Proof/Laws/Decode.lean ====
section
/-! SUPPORT. The fields of a command word and of an encoded one, as numbers: what the proofs about the decoder and the encoder cite instead of taking bit vectors apart. -/

namespace Sys2Proof

theorem append_toNat {m n : Nat} (x : BitVec m) (y : BitVec n) : (x ++ y).toNat = x.toNat * 2 ^ n + y.toNat := by
  rw [BitVec.toNat_append, ← Nat.shiftLeft_add_eq_or_of_lt y.isLt, Nat.shiftLeft_eq]

theorem extract_toNat {n : Nat} (w : BitVec n) (lo len : Nat) :
    (w.extractLsb' lo len).toNat = w.toNat / 2 ^ lo % 2 ^ len := by
  rw [BitVec.extractLsb'_toNat, Nat.shiftRight_eq_div_pow]

/-- R96 as a sum. -/
theorem cmdWord_toNat (f31_16 : Half) (f15_13 : BitVec 3) (f12_8 : BitVec 5) (f7_5 : BitVec 3)
    (f4_3 : BitVec 2) (op : BitVec 3) :
    (cmdWord f31_16 f15_13 f12_8 f7_5 f4_3 op).toNat =
      f31_16.toNat * 65536 + f15_13.toNat * 8192 + f12_8.toNat * 256 + f7_5.toNat * 32 + f4_3.toNat * 8 +
        op.toNat := by
  unfold cmdWord
  rw [append_toNat, append_toNat, append_toNat, append_toNat, append_toNat]
  omega

/-- A word is the word of its own fields. -/
theorem cmdWord_fields (w : Cmd) :
    cmdWord (w.extractLsb' 16 16) (w.extractLsb' 13 3) (w.extractLsb' 8 5) (w.extractLsb' 5 3)
      (w.extractLsb' 3 2) (w.extractLsb' 0 3) = w := by
  apply BitVec.eq_of_toNat_eq
  simp only [cmdWord_toNat, extract_toNat]
  have := w.isLt
  omega

section Fields

variable (f31_16 : Half) (f15_13 : BitVec 3) (f12_8 : BitVec 5) (f7_5 : BitVec 3) (f4_3 : BitVec 2) (op : BitVec 3)

@[simp] theorem cmdWord_op : (cmdWord f31_16 f15_13 f12_8 f7_5 f4_3 op).extractLsb' 0 3 = op := by
  apply BitVec.eq_of_toNat_eq
  rw [extract_toNat, cmdWord_toNat]
  omega

@[simp] theorem cmdWord_f4_3 : (cmdWord f31_16 f15_13 f12_8 f7_5 f4_3 op).extractLsb' 3 2 = f4_3 := by
  apply BitVec.eq_of_toNat_eq
  rw [extract_toNat, cmdWord_toNat]
  omega

@[simp] theorem cmdWord_f7_3 : (cmdWord f31_16 f15_13 f12_8 f7_5 f4_3 op).extractLsb' 3 5 = f7_5 ++ f4_3 := by
  apply BitVec.eq_of_toNat_eq
  rw [extract_toNat, cmdWord_toNat, append_toNat]
  omega

@[simp] theorem cmdWord_f12_8 : (cmdWord f31_16 f15_13 f12_8 f7_5 f4_3 op).extractLsb' 8 5 = f12_8 := by
  apply BitVec.eq_of_toNat_eq
  rw [extract_toNat, cmdWord_toNat]
  omega

@[simp] theorem cmdWord_f15_8 : (cmdWord f31_16 f15_13 f12_8 f7_5 f4_3 op).extractLsb' 8 8 = f15_13 ++ f12_8 := by
  apply BitVec.eq_of_toNat_eq
  rw [extract_toNat, cmdWord_toNat, append_toNat]
  omega

@[simp] theorem cmdWord_f15_13 : (cmdWord f31_16 f15_13 f12_8 f7_5 f4_3 op).extractLsb' 13 3 = f15_13 := by
  apply BitVec.eq_of_toNat_eq
  rw [extract_toNat, cmdWord_toNat]
  omega

@[simp] theorem cmdWord_f31_16 : (cmdWord f31_16 f15_13 f12_8 f7_5 f4_3 op).extractLsb' 16 16 = f31_16 := by
  apply BitVec.eq_of_toNat_eq
  rw [extract_toNat, cmdWord_toNat]
  omega

@[simp] theorem cmdWord_f15_5 :
    (cmdWord f31_16 f15_13 f12_8 f7_5 f4_3 op).extractLsb' 5 11 = f15_13 ++ f12_8 ++ f7_5 := by
  apply BitVec.eq_of_toNat_eq
  rw [extract_toNat, cmdWord_toNat, append_toNat, append_toNat]
  omega

@[simp] theorem cmdWord_f15_3 :
    (cmdWord f31_16 f15_13 f12_8 f7_5 f4_3 op).extractLsb' 3 13 = f15_13 ++ f12_8 ++ f7_5 ++ f4_3 := by
  apply BitVec.eq_of_toNat_eq
  rw [extract_toNat, cmdWord_toNat, append_toNat, append_toNat, append_toNat]
  omega

@[simp] theorem cmdWord_f31_13 :
    (cmdWord f31_16 f15_13 f12_8 f7_5 f4_3 op).extractLsb' 13 19 = f31_16 ++ f15_13 := by
  apply BitVec.eq_of_toNat_eq
  rw [extract_toNat, cmdWord_toNat, append_toNat]
  omega

end Fields

/-- The two halves of a byte's field in FEED's word (R71). -/
theorem byte_halves (b : Byte) : b.extractLsb' 5 3 ++ b.extractLsb' 0 5 = b := by
  apply BitVec.eq_of_toNat_eq
  rw [append_toNat, extract_toNat, extract_toNat]
  have := b.isLt
  omega

/-! ### What the decoder answers -/

@[simp] theorem Decoded.when_true (m : String) (i : Instr) : Decoded.when true m i = .command i := rfl

@[simp] theorem Decoded.when_false (m : String) (i : Instr) :
    Decoded.when false m i = .reject (.reservedBits m) := rfl

theorem Decoded.when_eq_command (z : Bool) (m : String) (i j : Instr) :
    Decoded.when z m i = .command j ↔ z = true ∧ i = j := by
  cases z <;> simp

theorem Decoded.when_eq_reject (z : Bool) (m : String) (i : Instr) (e : DecodeError) :
    Decoded.when z m i = .reject e ↔ z = false ∧ .reservedBits m = e := by
  cases z <;> simp

/-- The values of a three-bit field. -/
theorem op_cases (x : BitVec 3) : x = 0 ∨ x = 1 ∨ x = 2 ∨ x = 3 ∨ x = 4 ∨ x = 5 ∨ x = 6 ∨ x = 7 := by
  revert x; decide

/-- The values of a two-bit field. -/
theorem sel_cases (x : BitVec 2) : x = 0 ∨ x = 1 ∨ x = 2 ∨ x = 3 := by
  revert x; decide

end Sys2Proof
end

