-- ==== Sys2Proof/Laws/Feed.lean ====
section
/-! SUPPORT. What FEED does in each state and sub-phase, and what each of its functions can answer, said once. -/

namespace Sys2Proof.Machine

variable (p : Params) (v : Byte) (b : Block)

/-! ### The state selects the function (R90) -/

theorem feed_start (h : b.fsm = .start) : feed p v b = feedStart v b := by simp [feed, h]

theorem feed_response (h : b.fsm = .response) : feed p v b = feedResponse p v b := by simp [feed, h]

theorem feed_escStart (h : b.fsm = .escStart) : feed p v b = feedEscStart v b := by simp [feed, h]

theorem feed_bulk_cidp (h : b.fsm = .bulkData .cidp) :
    feed p v b = ({ b.storeCid v with fsm := .bulkData .lenp }, .nothing) := by simp [feed, h]

theorem feed_bulk_lenp (h : b.fsm = .bulkData .lenp) :
    feed p v b = feedLength .bulkDataRx (.bulkData .payp) v b := by simp [feed, h]

theorem feed_bulk_payp (h : b.fsm = .bulkData .payp) : feed p v b = feedPayload .bulkDataRx v b := by
  simp [feed, h]

theorem feed_udp_cidp (h : b.fsm = .udpBulkData .cidp) :
    feed p v b = ({ b.storeCid v with fsm := .udpBulkData .hdrp }, .nothing) := by simp [feed, h]

theorem feed_udp_hdrp (h : b.fsm = .udpBulkData .hdrp) : feed p v b = feedHeader p v b := by simp [feed, h]

theorem feed_udp_lenp (h : b.fsm = .udpBulkData .lenp) :
    feed p v b = feedLength .udpBulkDataRx (.udpBulkData .payp) v b := by simp [feed, h]

theorem feed_udp_payp (h : b.fsm = .udpBulkData .payp) : feed p v b = feedPayload .udpBulkDataRx v b := by
  simp [feed, h]

/-! ### What each function can answer -/

theorem feedStart_cases :
    ((v = byteCR ∨ v = byteLF) ∧ feedStart v b = (b, .nothing)) ∨
    (v = byteESC ∧ feedStart v b = (b.enterEsc, .nothing)) ∨
    (v ≠ byteCR ∧ v ≠ byteLF ∧ v ≠ byteESC ∧
      feedStart v b = ({ b.newBatch.beginLine v with fsm := .response }, .nothing)) := by
  unfold feedStart
  split
  · next h => exact .inl ⟨h, rfl⟩
  · next h =>
    rw [not_or] at h
    split
    · next h1 => exact .inr (.inl ⟨h1, rfl⟩)
    · next h1 => exact .inr (.inr ⟨h.1, h.2, h1, rfl⟩)

theorem feedResponse_cases :
    (v = byteLF ∧ b.skip = true ∧ feedResponse p v b = ({ b with skip := false, fsm := .start }, .nothing)) ∨
    (v = byteLF ∧ b.skip = false ∧ feedResponse p v b = finishLine p b) ∨
    (v ≠ byteLF ∧ b.skip = true ∧ feedResponse p v b = (b, .nothing)) ∨
    (v = byteESC ∧ b.skip = false ∧ p.escInResponse = .dispatch ∧
      feedResponse p v b = (b.dropLine.enterEsc, .nothing)) ∨
    (v ≠ byteLF ∧ b.skip = false ∧ ¬ (v = byteESC ∧ p.escInResponse = .dispatch) ∧ b.accLen = p.lineMax ∧
      feedResponse p v b = ({ b.dropLine with skip := true }, .of .inputTooLong false)) ∨
    (v ≠ byteLF ∧ b.skip = false ∧ ¬ (v = byteESC ∧ p.escInResponse = .dispatch) ∧ b.accLen ≠ p.lineMax ∧
      feedResponse p v b = (b.appendLine v, .nothing)) := by
  unfold feedResponse
  by_cases h1 : v = byteLF
  · rw [if_pos h1]
    cases h2 : b.skip
    · exact .inr (.inl ⟨h1, rfl, rfl⟩)
    · exact .inl ⟨h1, rfl, rfl⟩
  · rw [if_neg h1]
    cases h2 : b.skip
    · rw [if_neg Bool.false_ne_true]
      by_cases h3 : v = byteESC ∧ p.escInResponse = .dispatch
      · exact .inr (.inr (.inr (.inl ⟨h3.1, rfl, h3.2, if_pos h3⟩)))
      · rw [if_neg h3]
        by_cases h4 : b.accLen = p.lineMax
        · exact .inr (.inr (.inr (.inr (.inl ⟨h1, rfl, h3, h4, if_pos h4⟩))))
        · exact .inr (.inr (.inr (.inr (.inr ⟨h1, rfl, h3, h4, if_neg h4⟩))))
    · exact .inr (.inr (.inl ⟨h1, rfl, rfl⟩))

theorem feedEscStart_cases :
    ((v = byteZ ∨ v = byteH) ∧ feedEscStart v b = ({ b with escKind := v, fsm := .bulkData .cidp }, .nothing)) ∨
    (v = byteLowerY ∧ feedEscStart v b =
      ({ b with escKind := v, fsm := .udpBulkData .cidp, spSeen := false, tabSeen := false }, .nothing)) ∨
    (v = byteO ∧ feedEscStart v b = ({ b with fsm := .start }, .of .escOk false)) ∨
    (v = byteF ∧ feedEscStart v b = ({ b with fsm := .start }, .of .escFail false)) ∨
    (v ∉ [byteZ, byteH, byteLowerY, byteO, byteF] ∧ feedEscStart v b = ({ b with fsm := .start }, .nothing)) := by
  unfold feedEscStart
  by_cases h1 : v = byteZ ∨ v = byteH
  · exact .inl ⟨h1, if_pos h1⟩
  · rw [if_neg h1]
    rw [not_or] at h1
    split
    · next h2 => exact .inr (.inl ⟨h2, rfl⟩)
    · next h2 =>
      split
      · next h3 => exact .inr (.inr (.inl ⟨h3, rfl⟩))
      · next h3 =>
        split
        · next h4 => exact .inr (.inr (.inr (.inl ⟨h4, rfl⟩)))
        · next h4 => exact .inr (.inr (.inr (.inr ⟨by
            simp only [List.mem_cons, List.not_mem_nil, or_false, not_or]
            exact ⟨h1.1, h1.2, h2, h3, h4⟩, rfl⟩)))

theorem feedLength_cases (tag : Tag) (payp : Fsm) :
    (isDigit v = false ∧ feedLength tag payp v b = (b.leaveBulk, .nothing)) ∨
    (isDigit v = true ∧ b.dcount < 3 ∧ feedLength tag payp v b =
      ({ b with blen := b.blen * 10 + digit v, dcount := b.dcount + 1 }, .nothing)) ∨
    (isDigit v = true ∧ ¬ b.dcount < 3 ∧ b.blen * 10 + digit v = 0 ∧
      feedLength tag payp v b = ({ b with escDone := true }.leaveBulk, .of tag true)) ∨
    (isDigit v = true ∧ ¬ b.dcount < 3 ∧ b.blen * 10 + digit v ≠ 0 ∧ feedLength tag payp v b =
      ({ b with blen := b.blen * 10 + digit v, dcount := 4, fsm := payp }, .nothing)) := by
  unfold feedLength
  cases h1 : isDigit v
  · exact .inl ⟨rfl, if_neg Bool.false_ne_true⟩
  · rw [if_pos rfl]
    by_cases h2 : b.dcount < 3
    · exact .inr (.inl ⟨rfl, h2, if_pos h2⟩)
    · rw [if_neg h2]
      by_cases h3 : b.blen * 10 + digit v = 0
      · exact .inr (.inr (.inl ⟨rfl, h2, h3, if_pos h3⟩))
      · exact .inr (.inr (.inr ⟨rfl, h2, h3, if_neg h3⟩))

theorem feedPayload_cases (tag : Tag) :
    (b.blen - 1 = 0 ∧
      feedPayload tag v b = ({ b.storeEsc v with escDone := true }.leaveBulk, .of tag true)) ∨
    (b.blen - 1 ≠ 0 ∧ feedPayload tag v b = ({ b.storeEsc v with blen := b.blen - 1 }, .of tag false)) := by
  unfold feedPayload
  by_cases h : b.blen - 1 = 0
  · exact .inl ⟨h, if_pos h⟩
  · exact .inr ⟨h, if_neg h⟩

theorem feedHeader_cases :
    (b.udpHdrLen = p.udpHdrMax ∧ feedHeader p v b = (b.leaveBulk, .of .bufError false)) ∨
    (b.udpHdrLen ≠ p.udpHdrMax ∧ v = byteSP ∧
      feedHeader p v b = ({ b.storeHdr v with spSeen := true }, .nothing)) ∨
    (b.udpHdrLen ≠ p.udpHdrMax ∧ v = byteHT ∧ b.spSeen = true ∧
      feedHeader p v b = ({ b.storeHdr v with tabSeen := true, fsm := .udpBulkData .lenp }, .nothing)) ∨
    (b.udpHdrLen ≠ p.udpHdrMax ∧ v ≠ byteSP ∧ ¬ (v = byteHT ∧ b.spSeen = true) ∧
      feedHeader p v b = (b.storeHdr v, .nothing)) := by
  unfold feedHeader
  by_cases h1 : b.udpHdrLen = p.udpHdrMax
  · exact .inl ⟨h1, if_pos h1⟩
  · rw [if_neg h1]
    by_cases h2 : v = byteSP
    · exact .inr (.inl ⟨h1, h2, if_pos h2⟩)
    · rw [if_neg h2]
      by_cases h3 : v = byteHT ∧ b.spSeen = true
      · exact .inr (.inr (.inl ⟨h1, h3.1, h3.2, if_pos h3⟩))
      · exact .inr (.inr (.inr ⟨h1, h2, h3, if_neg h3⟩))

/-- What `finish_line()` leaves (R165). -/
theorem finishLine_eq :
    finishLine p b = ({ b.storeLine.dropLine with
        connCid := if (classify p b.line).tag = .tcpServerConnect then (classify p b.line).cid.getD b.connCid
          else b.connCid
        fsm := if (classify p b.line).tag = .unmatched then b.fsm else .start },
      { tag := (classify p b.line).tag, final := false, midx := (classify p b.line).midx }) := rfl

/-! ### Digits -/

theorem isDigit_eq_true (v : Byte) : isDigit v = true ↔ 0x30 ≤ v.toNat ∧ v.toNat ≤ 0x39 := by
  simp [isDigit]

theorem digit_le (v : Byte) (h : isDigit v = true) : digit v ≤ 9 := by
  rw [isDigit_eq_true] at h
  unfold digit
  omega

/-- The byte of a decimal digit (R53). -/
theorem digit_byte (n : Nat) : isDigit (BitVec.ofNat 8 (0x30 + n % 10)) = true ∧
    digit (BitVec.ofNat 8 (0x30 + n % 10)) = n % 10 := by
  have h : (BitVec.ofNat 8 (0x30 + n % 10)).toNat = 0x30 + n % 10 := by
    rw [BitVec.toNat_ofNat]; omega
  rw [isDigit_eq_true, digit, h]
  omega

/-! ### One FEED -/

/-- What `FEED(b)` can do, said once: a property of the block and emission that every case gives holds of
FEED. Each case has the premises of its rule that the proofs use. -/
theorem feed_rule (P : Block × Emitted → Prop)
    (ignored : b.fsm = .start → P (b, .nothing))
    (escape : b.fsm = .start → v = byteESC → P (b.enterEsc, .nothing))
    (newLine : b.fsm = .start → v ≠ byteCR → v ≠ byteLF → v ≠ byteESC →
      P ({ b.newBatch.beginLine v with fsm := .response }, .nothing))
    (skipped : b.fsm = .response → b.skip = true → P ({ b with skip := false, fsm := .start }, .nothing))
    (lineEnd : b.fsm = .response → v = byteLF → b.skip = false → P (finishLine p b))
    (discarded : b.fsm = .response → b.skip = true → P (b, .nothing))
    (dispatched : b.fsm = .response → b.skip = false → P (b.dropLine.enterEsc, .nothing))
    (overflowed : b.fsm = .response → b.skip = false → b.accLen = p.lineMax →
      P ({ b.dropLine with skip := true }, .of .inputTooLong false))
    (appended : b.fsm = .response → b.skip = false → b.accLen ≠ p.lineMax → P (b.appendLine v, .nothing))
    (bulk : b.fsm = .escStart → P ({ b with escKind := v, fsm := .bulkData .cidp }, .nothing))
    (udp : b.fsm = .escStart →
      P ({ b with escKind := v, fsm := .udpBulkData .cidp, spSeen := false, tabSeen := false }, .nothing))
    (answered : ∀ t, b.fsm = .escStart → t = .none ∨ t = .escOk ∨ t = .escFail →
      P ({ b with fsm := .start }, .of t false))
    (bulkCid : b.fsm = .bulkData .cidp → P ({ b.storeCid v with fsm := .bulkData .lenp }, .nothing))
    (udpCid : b.fsm = .udpBulkData .cidp → P ({ b.storeCid v with fsm := .udpBulkData .hdrp }, .nothing))
    (notDigit : b.fsm = .bulkData .lenp ∨ b.fsm = .udpBulkData .lenp → P (b.leaveBulk, .nothing))
    (digitByte : b.fsm = .bulkData .lenp ∨ b.fsm = .udpBulkData .lenp → b.dcount < 3 → digit v ≤ 9 →
      P ({ b with blen := b.blen * 10 + digit v, dcount := b.dcount + 1 }, .nothing))
    (empty : ∀ t, t = .bulkDataRx ∨ t = .udpBulkDataRx → b.fsm = .bulkData .lenp ∨ b.fsm = .udpBulkData .lenp →
      P ({ b with escDone := true }.leaveBulk, .of t true))
    (lastDigit : ∀ n, b.fsm = .bulkData .lenp ∧ n = .bulkData .payp ∨
        b.fsm = .udpBulkData .lenp ∧ n = .udpBulkData .payp →
      ¬ b.dcount < 3 → digit v ≤ 9 → b.blen * 10 + digit v ≠ 0 →
      P ({ b with blen := b.blen * 10 + digit v, dcount := 4, fsm := n }, .nothing))
    (lastByte : ∀ t, t = .bulkDataRx ∨ t = .udpBulkDataRx →
      b.fsm = .bulkData .payp ∨ b.fsm = .udpBulkData .payp → b.blen - 1 = 0 →
      P ({ b.storeEsc v with escDone := true }.leaveBulk, .of t true))
    (payload : ∀ t, t = .bulkDataRx ∨ t = .udpBulkDataRx →
      b.fsm = .bulkData .payp ∨ b.fsm = .udpBulkData .payp → b.blen - 1 ≠ 0 →
      P ({ b.storeEsc v with blen := b.blen - 1 }, .of t false))
    (headerFull : b.fsm = .udpBulkData .hdrp → P (b.leaveBulk, .of .bufError false))
    (space : b.fsm = .udpBulkData .hdrp → b.udpHdrLen ≠ p.udpHdrMax →
      P ({ b.storeHdr v with spSeen := true }, .nothing))
    (tab : b.fsm = .udpBulkData .hdrp → b.udpHdrLen ≠ p.udpHdrMax → b.spSeen = true →
      P ({ b.storeHdr v with tabSeen := true, fsm := .udpBulkData .lenp }, .nothing))
    (header : b.fsm = .udpBulkData .hdrp → b.udpHdrLen ≠ p.udpHdrMax → P (b.storeHdr v, .nothing)) :
    P (feed p v b) := by
  have lengths : ∀ t n, t = .bulkDataRx ∨ t = .udpBulkDataRx → b.fsm = .bulkData .lenp ∧ n = .bulkData .payp ∨
      b.fsm = .udpBulkData .lenp ∧ n = .udpBulkData .payp → P (feedLength t n v b) := by
    intro t n ht hn
    have hf : b.fsm = .bulkData .lenp ∨ b.fsm = .udpBulkData .lenp := hn.imp And.left And.left
    rcases feedLength_cases v b t n with ⟨-, h⟩ | ⟨hd, hc, h⟩ | ⟨-, -, -, h⟩ | ⟨hd, hc, hz, h⟩ <;> rw [h]
    exacts [notDigit hf, digitByte hf hc (digit_le v hd), empty t ht hf, lastDigit n hn hc (digit_le v hd) hz]
  have payloads : ∀ t, t = .bulkDataRx ∨ t = .udpBulkDataRx →
      b.fsm = .bulkData .payp ∨ b.fsm = .udpBulkData .payp → P (feedPayload t v b) := by
    intro t ht hf
    rcases feedPayload_cases v b t with ⟨hz, h⟩ | ⟨hz, h⟩ <;> rw [h]
    exacts [lastByte t ht hf hz, payload t ht hf hz]
  unfold feed
  split
  · next hf =>
    rcases feedStart_cases v b with ⟨-, h⟩ | ⟨h0, h⟩ | ⟨h0, h1, h2, h⟩ <;> rw [h]
    exacts [ignored hf, escape hf h0, newLine hf h0 h1 h2]
  · next hf =>
    rcases feedResponse_cases p v b with
      ⟨-, hs, h⟩ | ⟨h0, hs, h⟩ | ⟨-, hs, h⟩ | ⟨-, hs, -, h⟩ | ⟨-, hs, -, hl, h⟩ | ⟨-, hs, -, hl, h⟩ <;> rw [h]
    exacts [skipped hf hs, lineEnd hf h0 hs, discarded hf hs, dispatched hf hs, overflowed hf hs hl,
      appended hf hs hl]
  · next hf =>
    rcases feedEscStart_cases v b with ⟨-, h⟩ | ⟨-, h⟩ | ⟨-, h⟩ | ⟨-, h⟩ | ⟨-, h⟩ <;> rw [h]
    exacts [bulk hf, udp hf, answered _ hf (by simp), answered _ hf (by simp), answered .none hf (by simp)]
  · next hf => exact bulkCid hf
  · next hf => exact lengths _ _ (.inl rfl) (.inl ⟨hf, rfl⟩)
  · next hf => exact payloads _ (.inl rfl) (.inl hf)
  · next hf => exact udpCid hf
  · next hf =>
    rcases feedHeader_cases p v b with ⟨-, h⟩ | ⟨hl, -, h⟩ | ⟨hl, -, hs, h⟩ | ⟨hl, -, -, h⟩ <;> rw [h]
    exacts [headerFull hf, space hf hl, tab hf hl hs, header hf hl]
  · next hf => exact lengths _ _ (.inr rfl) (.inr ⟨hf, rfl⟩)
  · next hf => exact payloads _ (.inr rfl) (.inr hf)

/-! ### Runs of FEED -/

@[simp] theorem feedAll_nil : feedAll p [] b = (b, []) := rfl

theorem feedAll_cons (w : List Byte) :
    feedAll p (v :: w) b =
      ((feedAll p w (feed p v b).1).1, (feed p v b).2 :: (feedAll p w (feed p v b).1).2) := rfl

@[simp] theorem feedAll_length (w : List Byte) : (feedAll p w b).2.length = w.length := by
  induction w generalizing b with
  | nil => rfl
  | cons v w ih => simp [feedAll_cons, ih]

end Sys2Proof.Machine
end

