-- ==== Sys2Proof/Laws/Header.lean ====
section
/-! SUPPORT. The bytes of a header as numbers, and the bytes of a header made from bytes. -/

namespace Sys2Proof.Machine

/-- A byte of a header as a number (R51). -/
theorem hdrByte_toNat (h : Hdr) (k : Nat) : (hdrByte h k).toNat = h.toNat / 256 ^ k % 256 := by
  rw [hdrByte, BitVec.extractLsb'_toNat, Nat.shiftRight_eq_div_pow, Nat.pow_mul]

/-- A header as a number, from its bytes (R51). -/
theorem mkHdr_toNat (h0 h1 h2 h3 h4 h5 h6 h7 : Byte) :
    (mkHdr h0 h1 h2 h3 h4 h5 h6 h7).toNat =
      h0.toNat + 256 * (h1.toNat + 256 * (h2.toNat + 256 * (h3.toNat + 256 * (h4.toNat + 256 * (h5.toNat +
        256 * (h6.toNat + 256 * h7.toNat)))))) := by
  have app : ∀ {m : Nat} (x : BitVec m) (y : Byte), (x ++ y).toNat = x.toNat * 256 + y.toNat := by
    intro m x y
    rw [BitVec.toNat_append, ← Nat.shiftLeft_add_eq_or_of_lt y.isLt, Nat.shiftLeft_eq]
  unfold mkHdr
  rw [app, app, app, app, app, app, app]
  omega

section Bytes

variable (h0 h1 h2 h3 h4 h5 h6 h7 : Byte)

@[simp] theorem hdrByte_mkHdr_0 : hdrByte (mkHdr h0 h1 h2 h3 h4 h5 h6 h7) 0 = h0 := by
  apply BitVec.eq_of_toNat_eq; rw [hdrByte_toNat, mkHdr_toNat]; omega

@[simp] theorem hdrByte_mkHdr_1 : hdrByte (mkHdr h0 h1 h2 h3 h4 h5 h6 h7) 1 = h1 := by
  apply BitVec.eq_of_toNat_eq; rw [hdrByte_toNat, mkHdr_toNat]; omega

@[simp] theorem hdrByte_mkHdr_2 : hdrByte (mkHdr h0 h1 h2 h3 h4 h5 h6 h7) 2 = h2 := by
  apply BitVec.eq_of_toNat_eq; rw [hdrByte_toNat, mkHdr_toNat]; omega

@[simp] theorem hdrByte_mkHdr_3 : hdrByte (mkHdr h0 h1 h2 h3 h4 h5 h6 h7) 3 = h3 := by
  apply BitVec.eq_of_toNat_eq; rw [hdrByte_toNat, mkHdr_toNat]; omega

@[simp] theorem hdrByte_mkHdr_4 : hdrByte (mkHdr h0 h1 h2 h3 h4 h5 h6 h7) 4 = h4 := by
  apply BitVec.eq_of_toNat_eq; rw [hdrByte_toNat, mkHdr_toNat]; omega

@[simp] theorem hdrByte_mkHdr_5 : hdrByte (mkHdr h0 h1 h2 h3 h4 h5 h6 h7) 5 = h5 := by
  apply BitVec.eq_of_toNat_eq; rw [hdrByte_toNat, mkHdr_toNat]; omega

@[simp] theorem hdrByte_mkHdr_6 : hdrByte (mkHdr h0 h1 h2 h3 h4 h5 h6 h7) 6 = h6 := by
  apply BitVec.eq_of_toNat_eq; rw [hdrByte_toNat, mkHdr_toNat]; omega

@[simp] theorem hdrByte_mkHdr_7 : hdrByte (mkHdr h0 h1 h2 h3 h4 h5 h6 h7) 7 = h7 := by
  apply BitVec.eq_of_toNat_eq; rw [hdrByte_toNat, mkHdr_toNat]; omega

end Bytes

/-- Only bytes 1 to 6 enter the checksum (R100). -/
theorem cksum_congr (h h' : Hdr) (same : ∀ k, 1 ≤ k → k ≤ 6 → hdrByte h k = hdrByte h' k) : cksum h = cksum h' := by
  simp only [cksum, same 1 (by decide) (by decide), same 2 (by decide) (by decide), same 3 (by decide) (by decide),
    same 4 (by decide) (by decide), same 5 (by decide) (by decide), same 6 (by decide) (by decide)]

end Sys2Proof.Machine
end

