-- ==== Sys2Proof/Laws/PerInstr.lean ====
section
/-! SUPPORT. Statements for all instructions, one lemma for each constructor: the encoder puts the fixed bits of the instruction's opcode-table row into its word. -/

namespace Sys2Proof.Laws

/-- The fixed bits of the instruction's row in spec/opcode_table.json: (lowest bit, number of bits, value). -/
def TableRow.fixed : Instr → List (Nat × Nat × Nat)
  | .nop => [(0, 32, 0)]
  | .feed _ => [(0, 8, 1), (16, 16, 0)]
  | .hencWreq _ => [(0, 16, 2)]
  | .hencRreq _ => [(0, 16, 10)]
  | .hencDfh _ => [(0, 16, 18)]
  | .hvalWrsp _ _ => [(0, 16, 3)]
  | .hvalRrsp _ _ => [(0, 16, 11)]
  | .hvalDth _ _ => [(0, 16, 19)]
  | .prd _ _ => [(0, 8, 4), (13, 3, 0)]
  | .plen _ => [(0, 8, 5), (13, 19, 0)]
  | .erd _ => [(0, 16, 6)]
  | .reservedOp111 _ => [(0, 3, 7)]
  | .reservedHencKsel11 _ => [(0, 5, 26)]
  | .reservedHvalMode11 _ => [(0, 5, 27)]

/-- The word of a well-formed instruction carries the fixed bits of its row. -/
def TableRow.Statement (i : Instr) : Prop :=
  i.wf = true → ∀ f ∈ TableRow.fixed i, (encode i).1.toNat / 2 ^ f.1 % 2 ^ f.2.1 = f.2.2

theorem TableRow.nop : TableRow.Statement .nop := by
  intro _; decide

theorem TableRow.feed (b : Byte) : TableRow.Statement (.feed b) := by
  intro _
  simp only [fixed, encode, cmdWord_toNat, List.forall_mem_cons, List.not_mem_nil, false_imp_iff, forall_true_iff]
  simp; omega

theorem TableRow.hencWreq (len : Half) : TableRow.Statement (.hencWreq len) := by
  intro _; simp [fixed, encode, cmdWord_toNat]

theorem TableRow.hencRreq (len : Half) : TableRow.Statement (.hencRreq len) := by
  intro _; simp [fixed, encode, cmdWord_toNat]; omega

theorem TableRow.hencDfh (len : Half) : TableRow.Statement (.hencDfh len) := by
  intro _; simp [fixed, encode, cmdWord_toNat]; omega

theorem TableRow.hvalWrsp (elen : Half) (din : Hdr) : TableRow.Statement (.hvalWrsp elen din) := by
  intro _; simp [fixed, encode, cmdWord_toNat]

theorem TableRow.hvalRrsp (elen : Half) (din : Hdr) : TableRow.Statement (.hvalRrsp elen din) := by
  intro _; simp [fixed, encode, cmdWord_toNat]; omega

theorem TableRow.hvalDth (elen : Half) (din : Hdr) : TableRow.Statement (.hvalDth elen din) := by
  intro _; simp [fixed, encode, cmdWord_toNat]; omega

theorem TableRow.prd (slot : Slot) (idx : Half) : TableRow.Statement (.prd slot idx) := by
  intro _; simp [fixed, encode, cmdWord_toNat]; omega

theorem TableRow.plen (slot : Slot) : TableRow.Statement (.plen slot) := by
  intro _; simp [fixed, encode, cmdWord_toNat]; omega

theorem TableRow.erd (idx : Half) : TableRow.Statement (.erd idx) := by
  intro _; simp [fixed, encode, cmdWord_toNat]

theorem TableRow.reservedOp111 (w : Cmd) : TableRow.Statement (.reservedOp111 w) := by
  intro h
  simp [Instr.wf, isReservedOp111, BitVec.toNat_eq] at h
  simp [fixed, encode]; omega

theorem TableRow.reservedHencKsel11 (w : Cmd) : TableRow.Statement (.reservedHencKsel11 w) := by
  intro h
  simp [Instr.wf, isReservedHencKsel11, BitVec.toNat_eq] at h
  simp [fixed, encode]; omega

theorem TableRow.reservedHvalMode11 (w : Cmd) : TableRow.Statement (.reservedHvalMode11 w) := by
  intro h
  simp [Instr.wf, isReservedHvalMode11, BitVec.toNat_eq] at h
  simp [fixed, encode]; omega

end Sys2Proof.Laws
end

