-- ==== Sys2Proof/Laws/Step.lean ====
section
/-! SUPPORT. What taking an input, a read-out, a step and a run can answer, said once. -/

namespace Sys2Proof.Machine

theorem takeInput_nil {s : State} (h : s.inputs = []) : s.takeInput = .refusal .noCommand := by
  simp [State.takeInput, h]

theorem takeInput_reset {s : State} {i : Input} {rest : List Input} (h : s.inputs = i :: rest) (hr : i.rst = true) :
    s.takeInput = .reset { s with inputs := rest } := by
  simp [State.takeInput, h, hr]

theorem takeInput_command {s : State} {i : Input} {rest : List Input} (h : s.inputs = i :: rest)
    (hr : i.rst = false) (hs : s.started = true) :
    s.takeInput = .command i.cmd i.din { s with inputs := rest } := by
  simp [State.takeInput, h, hr, hs]

theorem takeInput_beforeReset {s : State} {i : Input} {rest : List Input} (h : s.inputs = i :: rest)
    (hr : i.rst = false) (hs : s.started = false) : s.takeInput = .refusal .beforeReset := by
  simp [State.takeInput, h, hr, hs]

/-- A read-out goes on exactly where it found a value, and then sets the outputs alone. -/
theorem answerRead_eq_next (v : Option Half) (s t : State) :
    answerRead v s = .next t ↔ ∃ x, v = some x ∧ t = { s with out := readOut x } := by
  cases v with
  | none => simp [answerRead]
  | some x => simp [answerRead, eq_comm]

/-- A read-out faults exactly where it found no value. -/
theorem answerRead_eq_fault (v : Option Half) (s : State) (f : Fault) :
    answerRead v s = .fault f ↔ v = none ∧ f = .readUnwritten readErrOut := by
  cases v with
  | none => simp [answerRead, eq_comm]
  | some x => simp [answerRead]

theorem answerRead_ne_refused (v : Option Half) (s : State) (r : Refusal) : answerRead v s ≠ .refused r := by
  cases v <;> simp [answerRead]

/-- The first step of a run that goes on. -/
theorem run_succ_of_next {s t : State} (k : Nat) (h : step s = .next t) :
    Sys2Proof.core.run (k + 1) s = Sys2Proof.core.run k t := by
  simp only [Host.Core.run, show Sys2Proof.core.step s = .next t from h]

/-- A run of more steps goes on from where a run of fewer steps ends. -/
theorem run_add_of_next {s t : State} (j k : Nat) (h : Sys2Proof.core.run j s = .next t) :
    Sys2Proof.core.run (j + k) s = Sys2Proof.core.run k t := by
  induction j generalizing s with
  | zero => cases h; rw [Nat.zero_add]
  | succ j ih =>
    cases hs : step s with
    | next s' =>
      rw [run_succ_of_next j hs] at h
      rw [Nat.succ_add, run_succ_of_next _ hs, ih h]
    | fault f => simp [Host.Core.run, show Sys2Proof.core.step s = .fault f from hs] at h
    | refused r => simp [Host.Core.run, show Sys2Proof.core.step s = .refused r from hs] at h

/-- What a step that goes on has done: a reset, a command, or a rejected word. -/
theorem step_next {s t : State} (h : step s = .next t) :
    ∃ i rest, s.inputs = i :: rest ∧
      ((i.rst = true ∧ t = State.resetStep { s with inputs := rest }) ∨
       (i.rst = false ∧ s.started = true ∧
         ((∃ c, decode i.cmd i.din = .command c ∧ exec c { s with inputs := rest } = .next t) ∨
          (∃ e, decode i.cmd i.din = .reject e ∧ t = State.raiseCmdError { s with inputs := rest })))) := by
  cases hi : s.inputs with
  | nil => rw [step, takeInput_nil hi] at h; cases h
  | cons i rest =>
    refine ⟨i, rest, rfl, ?_⟩
    cases hr : i.rst with
    | true =>
      rw [step, takeInput_reset hi hr] at h
      cases h
      exact .inl ⟨rfl, rfl⟩
    | false =>
      cases hs : s.started with
      | false => rw [step, takeInput_beforeReset hi hr hs] at h; cases h
      | true =>
        rw [step, takeInput_command hi hr hs] at h
        refine .inr ⟨rfl, rfl, ?_⟩
        dsimp only at h
        cases hd : decode i.cmd i.din with
        | command c => rw [hd] at h; rw [hs] at h; exact .inl ⟨c, rfl, h⟩
        | reject e => rw [hd] at h; rw [hs] at h; cases h; exact .inr ⟨e, rfl, rfl⟩

end Sys2Proof.Machine
end

