-- ==== Sys2Proof/Tests/Slice0.lean ====
section
/-! SUPPORT. Tests: the refusals of WellFormed, every command's decoding, single steps against spec/95_test_vectors.md, and a witness for every obligation that has hypotheses. -/

namespace Sys2Proof.Tests

open Sys2Proof.Machine

/-! ### WellFormed -/

theorem test_illformed_op111 : (Instr.reservedOp111 0x00000006).wf = false := by decide
theorem test_illformed_henc_ksel11 : (Instr.reservedHencKsel11 0x00000012).wf = false := by decide
theorem test_illformed_henc_ksel11_op : (Instr.reservedHencKsel11 0x0000001B).wf = false := by decide
theorem test_illformed_hval_mode11 : (Instr.reservedHvalMode11 0x00000013).wf = false := by decide
theorem test_illformed_hval_mode11_op : (Instr.reservedHvalMode11 0x0000001A).wf = false := by decide
theorem test_run_needs_reset_first : runWf [⟨false, 0, 0⟩] = false := by decide
theorem test_run_with_reset_first : runWf [⟨true, 7, 0⟩, ⟨false, 0, 0⟩] = true := by decide

/-! ### Decoding: each word is written out from R71's table, fields from bit 31 down. -/

theorem test_decode_nop : decode 0b0000000000000000_000_00000_000_00_000 0 = .command .nop := by decide
theorem test_decode_feed : decode 0b0000000000000000_10110101_000_00_001 0 = .command (.feed 0xB5) := by decide
theorem test_decode_hencWreq : decode 0b0000000000000101_000_00000_000_00_010 0 = .command (.hencWreq 5) := by decide
theorem test_decode_hencRreq : decode 0b0000010101111000_000_00000_000_01_010 0 = .command (.hencRreq 1400) := by
  decide
theorem test_decode_hencDfh : decode 0b1000000000000001_000_00000_000_10_010 0 = .command (.hencDfh 0x8001) := by
  decide
theorem test_decode_hvalWrsp : decode 0b0000000000000101_000_00000_000_00_011 0xE9000500000011A5 =
    .command (.hvalWrsp 5 0xE9000500000011A5) := by decide
theorem test_decode_hvalRrsp : decode 0b0000010101111000_000_00000_000_01_011 0x020003E8000012A5 =
    .command (.hvalRrsp 1400 0x020003E8000012A5) := by decide
theorem test_decode_hvalDth : decode 0b0000001111101000_000_00000_000_10_011 1 = .command (.hvalDth 1000 1) := by
  decide
theorem test_decode_prd : decode 0b0000000000000010_000_10001_000_00_100 0 = .command (.prd 17 2) := by decide
theorem test_decode_plen : decode 0b0000000000000000_000_00011_000_00_101 0 = .command (.plen 3) := by decide
theorem test_decode_erd : decode 0b1000000000000011_000_00000_000_00_110 0 = .command (.erd 0x8003) := by decide
theorem test_decode_op111 : decode 0b1000000000000000_000_00000_000_00_111 0 =
    .command (.reservedOp111 0x80000007) := by decide
theorem test_decode_henc_ksel11 : decode 0b0000000000000101_000_00000_000_11_010 0 =
    .command (.reservedHencKsel11 0x0005001A) := by decide
theorem test_decode_hval_mode11 : decode 0b0000000000000101_000_00000_001_11_011 9 =
    .command (.reservedHvalMode11 0x0005003B) := by decide

/-! ### Reserved-zero bits (R71): V-RD-12 to V-RD-15, V-HE-11 -/

theorem test_reject_nop : decode 0x80000000 0 = .reject (.reservedBits "NOP") := by decide
theorem test_reject_feed : decode 0x00004F09 0 = .reject (.reservedBits "FEED") := by decide
theorem test_reject_henc : decode 0x00050022 0 = .reject (.reservedBits "HENC.WREQ") := by decide
theorem test_reject_hval : decode 0x0578800B 0 = .reject (.reservedBits "HVAL.RRSP") := by decide
theorem test_reject_prd : decode 0x00022304 0 = .reject (.reservedBits "PRD") := by decide
theorem test_reject_plen : decode 0x00010305 0 = .reject (.reservedBits "PLEN") := by decide
theorem test_reject_erd : decode 0x00000106 0 = .reject (.reservedBits "ERD") := by decide

/-! ### The table's numbering (log entry 11) -/

theorem test_table_word : decodeTableWord 96 0xE9000500000011A5_00050003 =
    some (.hvalWrsp 5 0xE9000500000011A5) := by decide
theorem test_table_word_short : decodeTableWord 32 0xFFFF_00050003 = some (.hvalWrsp 5 0) := by decide
theorem test_table_word_rejected : decodeTableWord 32 0x80000000 = none := by decide
theorem test_fetch_runs : step (State.reset.withFetchWord 32 0x00000007) =
    .next { State.reset with out := { Out.quiet with cmdErr := true } } := by rfl

/-! ### The codec, under the vector configuration -/

/-- V-HE-1. -/
theorem test_hencWreq : (hencOut Config.vectors .wreq 5).hdr = some 0xF9000500000001A5 := by decide
/-- V-HE-7. -/
theorem test_hencWreq_max : hencOut Config.vectors .wreq 1401 = { Out.quiet with encErr := some true } := by decide
/-- V-HE-3. -/
theorem test_hencRreq : (hencOut Config.vectors .rreq 1400).hdr = some 0x80057800000002A5 := by decide
/-- V-HE-6. -/
theorem test_hencDfh : (hencOut Config.vectors .dfh 1400).hdr = some 0x7F057800000003A5 := by decide
/-- V-HV-1. -/
theorem test_hvalWrsp : (hvalOut Config.vectors .wrsp 5 0xE9000500000011A5).hvErr = some .none ∧
    (hvalOut Config.vectors .wrsp 5 0xE9000500000011A5).hvLen = some 5 := by decide
/-- V-HV-16 and V-HV-17. -/
theorem test_hval_more : (hvalOut Config.vectors .wrsp 5 0xE8000500000111A5).hvMore = some true ∧
    (hvalOut Config.vectors .wrsp 5 0x69000580000011A5).hvRsv = some 0x800000 := by decide
/-- V-HV-9 and V-HV-10. -/
theorem test_hvalRrsp_bound : hvalErr Config.vectors .rrsp 1400 0x70057800000012A5 = .none ∧
    hvalErr Config.vectors .rrsp 1400 0x6F057900000012A5 = .badLen := by decide
/-- V-HV-12 and V-HV-13. -/
theorem test_hvalRrsp_zero : hvalErr Config.vectors .rrsp 0 0xED000000000012A5 = .zeroLen ∧
    hvalErr Config.vectors .rrsp 1400 0xEE000000000011A5 = .badOp := by decide
/-- V-HV-14 and V-HV-15. -/
theorem test_hvalDth : hvalErr Config.vectors .dth 1000 0xFF03E800000015A5 = .none ∧
    hvalErr Config.vectors .dth 1000 0x0003E700000015A5 = .badLen := by decide
/-- V-CK-9 and V-CK-5. -/
theorem test_cksum : cksum 0x00FFFFFFFFFFFF00 = 0x05 ∧ cksum 0x0006050403020100 = cksum 0x0001020304050600 := by
  decide

/-! ### The classifier, under the vector configuration -/

/-- V-CL-1, V-CL-7 and V-CL-13. -/
theorem test_classify_order : (classify Config.vectors (ascii "OK ERROR TEST")).midx = 0 ∧
    (classify Config.vectors (ascii "ERROR: INVALID INPUT")).midx = 3 ∧
    (classify Config.vectors (ascii "DISCONNECT 0 3 1.2.3.4 80")).midx = 8 := by decide
/-- V-CL-17, V-CL-20 and V-CL-21. -/
theorem test_classify_connect : (classify Config.vectors (ascii "CONNECT  0   3 a b")).cid = some 0x33 ∧
    (classify Config.vectors (ascii "CONNECT 0\t3 a b c")).cid = some 0x61 ∧
    (classify Config.vectors (ascii "CONNECT x CONNECT 1 2 3 4")).cid = some 0x43 := by decide
/-- V-CL-16, V-CL-24 and V-CL-25. -/
theorem test_classify_unmatched : (classify Config.vectors (ascii "CONNECT 0 3 a")).midx = 0xFF ∧
    (classify Config.vectors (ascii "AT+X CONNECT 0 3 a b")).midx = 0xF0 ∧
    (classify Config.vectors (ascii "AT+OK")).tag = .ok := by decide

/-- V-CL-28, and the model's choice where "\r" is a boot marker (log entry 21). -/
theorem test_classify_cr : classify Config.vectors [0x0D] = .unmatched ∧
    classify { Config.vectors with bootMarkers := [[0x0D]] } [0x0D] = { tag := .boot, midx := 8, cid := none } := by
  decide

/-! ### One FEED, under the vector configuration -/

/-- A block in the state `f`, all else as after reset. -/
def inState (f : Fsm) : Block :=
  { Block.reset with fsm := f }

/-- The block after the line "OK" of RESPONSE, before its LF. -/
def okLine : Block :=
  { inState .response with acc := [(0, 0x4F), (1, 0x4B)], accLen := 2 }

/-- V-ST-5: the LF of "OK". -/
theorem test_feed_ok : feed Config.vectors 0x0A okLine =
    ({ inState .start with pool := [(0, [(0, 0x4F), (1, 0x4B)])], poolLen := [(0, 2)], poolCount := 1 },
      { tag := .ok, final := false, midx := 0 }) := by decide
/-- W-4 byte 12: the last payload byte of a frame. -/
theorem test_feed_last_payload : feed Config.vectors 0x4F { inState (.bulkData .payp) with
      escKind := 0x5A, escBuf := [(0, 0x32)], escLen := 1, blen := 1, dcount := 4 } =
    ({ inState .start with escKind := 0x5A, escBuf := [(0, 0x32), (1, 0x4F)], escLen := 2, escDone := true },
      { tag := .bulkDataRx, final := true, midx := 0xFF }) := by decide

/-! ### Read-outs -/

/-- A machine whose pool holds the line "OK" and whose escape buffer holds "2H". -/
def stored : State :=
  { State.reset with block := { Block.reset with
      pool := [(0, [(0, 0x4F), (1, 0x4B)])], poolLen := [(0, 2)], poolCount := 1,
      escBuf := [(0, 0x32), (1, 0x48)], escLen := 2, escDone := true } }

theorem test_prd : exec (.prd 0 1) stored = .next { stored with out := readOut 0x004B } := by rfl
/-- V-RD-7: the index equal to the length. -/
theorem test_prd_end : exec (.prd 0 2) stored = .fault (.readUnwritten { Out.quiet with rdErr := some true }) := by
  rfl
theorem test_plen : exec (.plen 0) stored = .next { stored with out := readOut 2 } := by rfl
theorem test_erd : exec (.erd 1) stored = .next { stored with out := readOut 0x0048 } := by rfl
/-- V-RD-9. -/
theorem test_erd_reset : exec (.erd 0) State.reset = .fault (.readUnwritten { Out.quiet with rdErr := some true }) := by
  rfl

/-! ### Witnesses: states and operands that meet an obligation's hypotheses -/

/-- A machine after reset that the host presents one input to. -/
def given (cmd : Cmd) (din : Hdr) : State :=
  { State.reset with inputs := [⟨false, cmd, din⟩] }

/-- A machine after reset but for its block. -/
def withBlock (b : Block) : State :=
  { State.reset with block := b }

theorem witness_DecodeOfEncodeIsTheInstruction : (Instr.hvalDth 1000 1).wf = true ∧
    (Instr.reservedOp111 0xFFFFFFFF).wf = true ∧ (Instr.reservedHencKsel11 0xFFFFFFFA).wf = true ∧
    (Instr.reservedHvalMode11 0x0000001B).wf = true := by decide

theorem witness_EncodeOfDecodeIsTheWord : decode 0xFFFF0013 1 = .command (.hvalDth 0xFFFF 1) ∧
    decode 0x0000FF01 1 = .command (.feed 0xFF) := by decide

theorem witness_CommandErrorExactlyWhenReserved :
    [0x00000007, 0x0000001A, 0x0000001B, 0x00000008].all (fun w : Cmd =>
      (given w 0).started && (given w 0).inputs == [⟨false, w, 0⟩]) = true ∧
    reservedZero 0x00000008 ≠ 0 ∧ reservedZero 0 = 0 := by decide

theorem witness_StepRunsTheDecodedCommand : (given 0x00004F01 0).started = true ∧
    (given 0x00004F01 0).inputs = [⟨false, 0x00004F01, 0⟩] ∧ decode 0x00004F01 0 = .command (.feed 0x4F) := by decide

theorem witness_FetchWordIsRunNext : decodeTableWord 32 0x00004F01 = some (.feed 0x4F) := by decide

theorem witness_ResetStepGivesResetValues :
    ({ withBlock (inState (.bulkData .payp)) with inputs := [⟨true, 7, 1⟩] } : State).inputs = [⟨true, 7, 1⟩] := by decide

theorem witness_CommandBeforeResetIsRefused :
    ({ given 0 0 with started := false } : State).started = false ∧ (given 0 0).inputs = [⟨false, 0, 0⟩] := by decide

theorem witness_NoInputIsRefused : State.reset.inputs = [] := by decide

theorem witness_StartedMachineIsNeverRefused : (given 7 0).started = true ∧ (given 7 0).inputs ≠ [] := by decide

theorem witness_FaultsAreUnwrittenReads :
    stored.block.poolByte (0 : Slot).toNat (2 : Half).toNat = none ∧ stored.block.poolLength (1 : Slot).toNat = none ∧
    stored.block.escByte (2 : Half).toNat = none ∧
    (∃ f, step (given 0x00000004 0) = .fault f) ∧ (∃ f, step (given 0x00000005 0) = .fault f) ∧
      ∃ f, step (given 0x00000006 0) = .fault f :=
  ⟨by decide, by decide, by decide, ⟨_, rfl⟩, ⟨_, rfl⟩, ⟨_, rfl⟩⟩

theorem witness_RunOverFeedsIsFeedAll :
    ({ given 0 0 with inputs := [Input.ofInstr (.feed 0x4F), ⟨false, 0, 0⟩] } : State).inputs =
      [(0x4F : Byte)].map (fun v => Input.ofInstr (.feed v)) ++ [⟨false, 0, 0⟩] := by decide

/-- An ESC, then NOP, a read-out, an HVAL and a word the decoder rejects, then the 'Z'. -/
theorem witness_SplitStreamIsTheWholeStream :
    let between : List Input := [⟨false, 0, 0⟩, ⟨false, 0x00010006, 0⟩, ⟨false, 0x00050003, 0⟩, ⟨false, 0x80000000, 0⟩]
    stored.started = true ∧
    (∀ inp ∈ between, inp.rst = false ∧ ∀ x, decode inp.cmd inp.din ≠ .command (.feed x)) ∧
    ∃ m, Sys2Proof.core.run (1 + between.length)
      { stored with inputs := [Input.ofInstr (.feed 0x1B)] ++ between ++ [Input.ofInstr (.feed 0x5A)] } = .next m := by
  refine ⟨rfl, ?_, _, rfl⟩
  intro inp hi
  simp only [List.mem_cons, List.not_mem_nil, or_false] at hi
  rcases hi with rfl | rfl | rfl | rfl <;> exact ⟨rfl, fun _ h => nomatch h⟩

theorem witness_OnlyFeedWritesTheBlock : (∃ t, exec .nop State.reset = .next t) ∧
    ∃ t, exec (.feed 0x4F) State.reset = .next t := ⟨⟨_, rfl⟩, ⟨_, rfl⟩⟩

/-- Every kind of command completes somewhere. HENC's two cases are those of `witness_HvalOfAHencHeaderIsBadOp`. -/
theorem witness_CommandsDefineTheirOutputs :
    (∃ t, exec .nop State.reset = .next t) ∧ (∃ t, exec (.feed 0) State.reset = .next t) ∧
    (∃ t, exec (.hencWreq 0xFFFF) State.reset = .next t) ∧ (∃ t, exec (.hvalWrsp 0 0) State.reset = .next t) ∧
    (∃ t, exec (.prd 0 0) stored = .next t) ∧ ∃ t, exec (.reservedOp111 7) State.reset = .next t :=
  ⟨⟨_, rfl⟩, ⟨_, rfl⟩, ⟨_, rfl⟩, ⟨_, rfl⟩, ⟨_, rfl⟩, ⟨_, rfl⟩⟩

theorem witness_NeverEmitsTransportTags : ∃ t, step (given 0x00004F01 0) = .next t := ⟨_, rfl⟩

theorem witness_ReservedCommandsSetCmdErr : (0xFFFFFFFF : Cmd).extractLsb' 0 3 = 7#3 ∧
    (0x00000007 : Cmd).extractLsb' 0 3 = 7#3 := by decide

/-- A length of 0 is within every maximum. -/
theorem witness_HvalOfAHencHeaderIsBadOp :
    (∃ t h, exec (.hencWreq 0) State.reset = .next t ∧ t.out.hdr = some h) ∧
    (∃ t h, exec (.hencRreq 0) State.reset = .next t ∧ t.out.hdr = some h) ∧
    (∃ t h, exec (.hencDfh 0) State.reset = .next t ∧ t.out.hdr = some h) ∧
    ∃ t, exec (.hvalRrsp 0 0) State.reset = .next t :=
  ⟨⟨_, hencHdr Config.params (hencOp Config.params .wreq) 0, rfl, by simp [hencOut]⟩,
    ⟨_, hencHdr Config.params (hencOp Config.params .rreq) 0, rfl, by simp [hencOut]⟩,
    ⟨_, hencHdr Config.params (hencOp Config.params .dfh) 0, rfl, by simp [hencOut]⟩, ⟨_, rfl⟩⟩

theorem witness_ChecksumProperties :
    [1, 2, 3, 4, 5, 6].map (hdrByte 0xFF000000000000FF) = [1, 2, 3, 4, 5, 6].map (hdrByte 0) ∧
    hdrByte 0x0000000000000100 1 ≠ hdrByte 0 1 ∧ hdrByte 0x00FF000000000000 6 ≠ hdrByte 0 6 ∧
    ([1, 2, 3, 4, 5, 6].map (hdrByte 0x0006050403020100)).Perm
      ([1, 2, 3, 4, 5, 6].map (hdrByte 0x0001020304050600)) := by decide

theorem witness_TokensAreMaximalRuns : ([0x41, 0x0D] : List Byte) ≠ [] ∧ (0x20 : Byte) ∉ ([0x41, 0x0D] : List Byte) := by
  decide

theorem witness_MarkerTableOrder :
    0 < ({ Config.vectors with bootMarkers := [ascii "APP"] } : Params).bootMarkers.length := by decide

theorem witness_FirstMarkerWins : (markers Config.vectors)[3]? = some (ascii "ERROR", .error) ∧
    contains (ascii "ERROR") (ascii "ERROR") = true ∧
    ∀ e ∈ (markers Config.vectors).take 3, contains (ascii "ERROR") e.1 = false := by decide

/-- An echo, a connection notice, a notice with three tokens, and a line with none of these. -/
theorem witness_EchoAndConnectRules :
    [ascii "AT+X", ascii "CONNECT 0 3 a b", ascii "CONNECT 0 3 a", ascii "AT"].all (fun line =>
      (markers Config.vectors).all fun e => !contains line e.1) = true ∧
    startsWith (ascii "AT+X") [0x41, 0x54, 0x2B] = true ∧
    startsWith (ascii "CONNECT 0 3 a b") [0x41, 0x54, 0x2B] = false ∧
    afterFirst connectPattern (ascii "CONNECT 0 3 a b") = some (ascii "0 3 a b") ∧
    tokens (ascii "0 3 a b") = [ascii "0", ascii "3", ascii "a", ascii "b"] ∧
    afterFirst connectPattern (ascii "CONNECT 0 3 a") = some (ascii "0 3 a") ∧
    (tokens (ascii "0 3 a")).length = 3 ∧ contains (ascii "AT") connectPattern = false := by decide

theorem witness_FeedInStart : (withBlock (inState .start)).block.fsm = .start := by decide

/-- A line in progress, an overflow at the bound, a discarded byte, and the LF after an overflow. -/
theorem witness_FeedInResponse : (withBlock okLine).block.fsm = .response ∧
    (withBlock { inState .response with accLen := Config.params.lineMax }).block.accLen = Config.params.lineMax ∧
    (withBlock { inState .response with skip := true }).block.skip = true := ⟨rfl, rfl, rfl⟩

theorem witness_LineByteIsAppended : (withBlock okLine).block.fsm = .response ∧ (withBlock okLine).block.skip = false ∧
    (withBlock okLine).block.accLen < Config.params.lineMax ∧
    (withBlock { okLine with accLen := Config.params.lineMax - 1 }).block.accLen < Config.params.lineMax := by
  have h := params_lineMax
  refine ⟨rfl, rfl, ?_, ?_⟩
  · show 2 < Config.params.lineMax; omega
  · show Config.params.lineMax - 1 < Config.params.lineMax; omega

/-- The block with `n` empty lines stored, in RESPONSE. -/
def emptyLines (n : Nat) : Block :=
  { inState .response with
    pool := (List.range n).map fun i => (i, []), poolLen := (List.range n).map fun i => (i, 0), poolCount := n }

/-- An array whose every cell holds `v` reads as nothing else. -/
theorem read_constant {α : Type} (v w : α) (ks : List Nat) (i : Nat)
    (h : Table.read (ks.map fun k => (k, v)) i = some w) : w = v := by
  induction ks with
  | nil => exact absurd h (by simp)
  | cons k ks ih =>
    rw [List.map_cons, Table.read_cons] at h
    split at h
    · exact (Option.some.inj h).symm
    · exact ih h

theorem emptyLines_read (n i : Nat) (line : Memory) (h : Table.read (emptyLines n).pool i = some line) :
    line = [] :=
  read_constant [] line (List.range n) i h

theorem emptyLines_readLen (n i k : Nat) (h : Table.read (emptyLines n).poolLen i = some k) : k = 0 :=
  read_constant 0 k (List.range n) i h

/-- The invariant holds of a block with `n` empty lines. -/
theorem emptyLines_inv (n : Nat) (h : n ≤ 32) : (emptyLines n).Inv Config.params := by
  have hl := params_lineMax
  have he := params_escBufSize
  have keys : Table.filled (emptyLines n).poolLen n := by simp [Table.filled, Table.keys, emptyLines, Function.comp_def]
  refine ⟨⟨Nat.zero_le _, h, ?_, ⟨Nat.zero_le _, ?_⟩, Nat.zero_le _, Nat.zero_le _, Nat.zero_le _, fun _ => rfl,
    fun _ => by simp [Block.bphase, emptyLines, inState], ?_, ?_, ?_, fun _ => rfl⟩, ⟨rfl, ?_, keys, ?_, rfl⟩, trivial⟩
  · intro s k hs hk
    rw [Block.poolLength, if_pos hs] at hk
    rw [emptyLines_readLen n s k hk]
    exact Nat.zero_le _
  · show 1 + 0 + 9999 ≤ Config.params.escBufSize; omega
  · intro hs; cases hs
  · intro hs; cases hs
  · intro hs; cases hs
  · simp [Table.filled, Table.keys, emptyLines, Function.comp_def]
  · intro s line hs
    obtain rfl := emptyLines_read n s line hs
    have hn : s < n := by
      rw [← Table.filled_isSome (n := n) (t := (emptyLines n).pool)
        (by simp [Table.filled, Table.keys, emptyLines, Function.comp_def]), hs]
      rfl
    obtain ⟨k, hk⟩ := Table.filled_read keys hn
    obtain rfl := emptyLines_readLen n s k hk
    exact ⟨0, hk, rfl⟩

theorem witness_LineEndStoresAndClassifies : ∀ n ∈ [0, 31], (withBlock (emptyLines n)).block.Inv Config.params ∧
    (withBlock (emptyLines n)).block.fsm = .response ∧ (withBlock (emptyLines n)).block.skip = false ∧
    (withBlock (emptyLines n)).block.poolCount < 32 := by
  intro n hn
  have h : n < 32 := by simp at hn; omega
  exact ⟨emptyLines_inv n (by omega), rfl, rfl, h⟩

theorem witness_LineEndWithFullPool : (withBlock (emptyLines 32)).block.fsm = .response ∧
    (withBlock (emptyLines 32)).block.skip = false ∧ 32 ≤ (withBlock (emptyLines 32)).block.poolCount := by decide

theorem witness_FeedInEscStart : (withBlock (inState .escStart)).block.fsm = .escStart := by decide

theorem witness_FeedOfTheCid : (withBlock (inState (.bulkData .cidp))).block.fsm = .bulkData .cidp ∧
    (withBlock (inState (.udpBulkData .cidp))).block.fsm = .udpBulkData .cidp := by decide

/-- A non-digit on either side of the digits, an early digit, the last digit of 0000, and those of 0001 and 9999. -/
theorem witness_FeedOfTheLength :
    (withBlock (inState (.bulkData .lenp))).block.fsm = .bulkData .lenp ∧
    (withBlock (inState (.udpBulkData .lenp))).block.fsm = .udpBulkData .lenp ∧
    (0x2F : Byte).toNat < 0x30 ∧ 0x39 < (0x3A : Byte).toNat ∧
    (withBlock { inState (.bulkData .lenp) with dcount := 2 }).block.dcount < 3 ∧
    (withBlock { inState (.udpBulkData .lenp) with dcount := 3 }).block.blen * 10 + ((0x30 : Byte).toNat - 0x30) = 0 ∧
    1 ≤ (withBlock { inState (.bulkData .lenp) with dcount := 3 }).block.blen * 10 + ((0x31 : Byte).toNat - 0x30) ∧
    1 ≤ (withBlock { inState (.udpBulkData .lenp) with dcount := 3, blen := 999 }).block.blen * 10 +
      ((0x39 : Byte).toNat - 0x30) := by decide

theorem witness_FeedOfThePayload : 1 ≤ (withBlock { inState (.bulkData .payp) with blen := 1 }).block.blen ∧
    (withBlock { inState (.bulkData .payp) with blen := 1 }).block.fsm = .bulkData .payp ∧
    1 ≤ (withBlock { inState (.udpBulkData .payp) with blen := 9999 }).block.blen ∧
    (withBlock { inState (.udpBulkData .payp) with blen := 9999 }).block.fsm = .udpBulkData .payp := by decide

theorem witness_FeedOfTheUdpHeader : (withBlock (inState (.udpBulkData .hdrp))).block.fsm = .udpBulkData .hdrp ∧
    (withBlock { inState (.udpBulkData .hdrp) with udpHdrLen := Config.params.udpHdrMax }).block.udpHdrLen =
      Config.params.udpHdrMax ∧
    (withBlock { inState (.udpBulkData .hdrp) with udpHdrLen := Config.params.udpHdrMax - 1 }).block.udpHdrLen <
      Config.params.udpHdrMax := by
  have h := params_udpHdrMax
  exact ⟨rfl, rfl, show Config.params.udpHdrMax - 1 < Config.params.udpHdrMax by omega⟩

theorem witness_PayloadContentDoesNotMatter : ({ inState (.bulkData .payp) with blen := 2 } : Block).bphase = .payp ∧
    ([0x41, 0x0A] : List Byte).length = ([0x1B, 0x42] : List Byte).length ∧
    ([0x41, 0x0A] : List Byte).length ≤ ({ inState (.bulkData .payp) with blen := 2 } : Block).blen := by decide

theorem witness_EscapeBufferLivesForTheFrame : (∃ t, exec (.feed 0x1B) stored = .next t) ∧
    (∃ t, exec .nop { stored with block := { stored.block with fsm := .bulkData .cidp } } = .next t) ∧
    stored.block.fsm ≠ .bulkData .cidp ∧ stored.block.fsm ≠ .udpBulkData .cidp ∧
    stored.block.escByte 1 = some 0x48 ∧ (withBlock (inState (.udpBulkData .cidp))).block.fsm = .udpBulkData .cidp :=
  ⟨⟨_, rfl⟩, ⟨_, rfl⟩, by decide, by decide, by decide, by decide⟩

theorem witness_PoolLinesLiveForTheBatch : (∃ t, exec (.feed 0x4F) stored = .next t) ∧
    (∃ t, exec (.feed 0x1B) stored = .next t) ∧ stored.block.fsm = .start ∧
    stored.block.poolLength 0 = some 2 ∧ stored.block.poolByte 0 1 = some 0x4B :=
  ⟨⟨_, rfl⟩, ⟨_, rfl⟩, by decide, by decide, by decide⟩

theorem witness_ConnCidChangesOnlyByConnect :
    ∃ t, exec (.feed 0x4F) State.reset = .next t ∧ t.out.tag ≠ some .tcpServerConnect := ⟨_, rfl, by decide⟩

theorem witness_BulkFrameIsDelivered : (inState .start).fsm = .start ∧ ([] : List Byte).length ≤ 9999 ∧
    (List.replicate 9999 (0x0A : Byte)).length ≤ 9999 :=
  ⟨rfl, by decide, by rw [List.length_replicate]⟩

/-- The shortest header text and the longest. -/
theorem witness_UdpFrameIsDelivered : ∀ n ∈ [1, Config.params.udpHdrMax - 1],
    udpText (List.replicate n byteSP) ∧ (List.replicate n byteSP).length + 1 ≤ Config.params.udpHdrMax := by
  intro n hn
  have h := params_udpHdrMax
  have h1 : 1 ≤ n ∧ n + 1 ≤ Config.params.udpHdrMax := by
    simp only [List.mem_cons, List.not_mem_nil, or_false] at hn
    omega
  refine ⟨⟨by simp; omega, ?_⟩, by simpa using h1.2⟩
  intro before after heq hm
  have : byteHT ∈ List.replicate n byteSP := by
    rw [heq]; exact List.mem_append_right _ (List.mem_cons_of_mem _ hm)
  rw [List.mem_replicate] at this
  exact absurd this.2 (by decide)

/-- The shortest line and the longest, and under LITERAL a line of an ESC. -/
theorem witness_TextLineIsDelivered : (inState .start).fsm = .start ∧ (inState .start).skip = false ∧
    ∀ n ∈ [0, Config.params.lineMax - 1], 1 + (List.replicate n (0x41 : Byte)).length ≤ Config.params.lineMax ∧
      (∀ x ∈ List.replicate n (0x41 : Byte), x ≠ 0x0A ∧ (x = 0x1B → Config.params.escInResponse = .literal)) ∧
      (Config.params.escInResponse = .literal →
        ∀ x ∈ List.replicate n (0x1B : Byte), x ≠ 0x0A ∧ (x = 0x1B → Config.params.escInResponse = .literal)) := by
  refine ⟨rfl, rfl, ?_⟩
  intro n hn
  have h := params_lineMax
  have h1 : 1 + n ≤ Config.params.lineMax := by
    simp only [List.mem_cons, List.not_mem_nil, or_false] at hn
    omega
  refine ⟨by simpa using h1, fun x hx => ?_, fun hl x hx => ?_⟩ <;> rw [(List.mem_replicate.mp hx).2]
  · exact ⟨by decide, fun h => absurd h (by decide)⟩
  · exact ⟨by decide, fun _ => hl⟩

theorem witness_InvariantKeptByStep :
    ({ withBlock (emptyLines 1) with inputs := [⟨false, 0, 0⟩] } : State).block.Inv Config.params ∧
    ∃ t, step { withBlock (emptyLines 1) with inputs := [⟨false, 0, 0⟩] } = .next t :=
  ⟨emptyLines_inv 1 (by decide), _, rfl⟩

theorem witness_ReachableStatesMeetR41 : Reachable (given 0x00004F01 0) :=
  .drive State.reset [⟨false, 0x00004F01, 0⟩] .reset

/-- The CID byte of a frame. -/
theorem witness_EscapeBufferNeverOverflows :
    ({ emptyLines 0 with fsm := .bulkData .cidp } : Block).Inv Config.params ∧
    ∃ t, exec (.feed 0x32) (withBlock { emptyLines 0 with fsm := .bulkData .cidp }) = .next t ∧
      t.block.escLen = (withBlock { emptyLines 0 with fsm := .bulkData .cidp }).block.escLen + 1 := by
  have h := emptyLines_inv 0 (by decide)
  refine ⟨⟨⟨h.r41.acc_len, h.r41.pool_count, h.r41.pool_len, h.r41.esc_len, h.r41.udp_hdr_len, h.r41.dcount,
    h.r41.blen, fun _ => rfl, fun _ => by decide, ?_, ?_, ?_, fun _ => rfl⟩,
    ⟨h.stored.acc, h.stored.pool, h.stored.poolLen, h.stored.lines, h.stored.escBuf⟩, ⟨rfl, rfl⟩⟩, _, rfl, rfl⟩ <;>
  intro hs <;> cases hs

/-- Each clause at a boundary: the last byte, the index at the length, and the first slot beyond the pool. -/
theorem witness_PrdReadsAStoredByte : (0 : Slot).toNat < stored.block.poolCount ∧
    Table.read stored.block.poolLen (0 : Slot).toNat = some 2 ∧ (1 : Half).toNat < 2 ∧
    Table.read stored.block.pool (0 : Slot).toNat = some [(0, 0x4F), (1, 0x4B)] ∧
    Table.read [((0 : Nat), (0x4F : Byte)), (1, 0x4B)] (1 : Half).toNat = some 0x4B ∧
    2 ≤ (2 : Half).toNat ∧ stored.block.poolCount ≤ (1 : Slot).toNat := by decide

theorem witness_PlenReadsALength : (0 : Slot).toNat < stored.block.poolCount ∧
    Table.read stored.block.poolLen (0 : Slot).toNat = some 2 ∧ stored.block.poolCount ≤ (1 : Slot).toNat := by decide

theorem witness_ErdReadsTheEscapeBuffer : (1 : Half).toNat < stored.block.escLen ∧
    Table.read stored.block.escBuf (1 : Half).toNat = some 0x48 ∧ stored.block.escLen ≤ (2 : Half).toNat := by decide

theorem witness_ReadoutsCompleteBelowTheLengths : (withBlock (emptyLines 32)).block.Inv Config.params :=
  emptyLines_inv 32 (by decide)

theorem witness_ReadoutsRepeat : (∃ t, exec (.prd 0 1) stored = .next t) ∧
    (∃ t, exec (.plen 0) stored = .next t) ∧ ∃ t, exec (.erd 1) stored = .next t :=
  ⟨⟨_, rfl⟩, ⟨_, rfl⟩, ⟨_, rfl⟩⟩

end Sys2Proof.Tests
end

section
/-! What a command leaves unchanged, and what a run of steps does to the block: the rules about exec, step and run. -/

namespace Sys2Proof.Machine

/-! ### One command -/

/-- Every command but FEED, where it completes, sets the outputs and nothing else (R36, R37, R57). -/
theorem exec_sets_out {i : Instr} {s t : State} (notFeed : ∀ v, i ≠ .feed v) (h : exec i s = .next t) :
    ∃ o, t = { s with out := o } := by
  have readsOnly : ∀ v : Option Half, answerRead v s = .next t → ∃ o, t = { s with out := o } := by
    intro v hv
    obtain ⟨x, -, ht⟩ := (answerRead_eq_next v s t).mp hv
    exact ⟨_, ht⟩
  cases i with
  | feed v => exact absurd rfl (notFeed v)
  | prd slot idx => exact readsOnly _ h
  | plen slot => exact readsOnly _ h
  | erd idx => exact readsOnly _ h
  | nop | hencWreq | hencRreq | hencDfh | hvalWrsp | hvalRrsp | hvalDth | reservedOp111 | reservedHencKsel11
  | reservedHvalMode11 => cases h; exact ⟨_, rfl⟩

theorem exec_feed (v : Byte) (s : State) :
    exec (.feed v) s = .next { s with
      block := (feed Config.params v s.block).1, out := feedOut (feed Config.params v s.block).2 } := rfl

/-- The encoding of a FEED is read back as that FEED (R71, R96). -/
theorem decode_encode_feed (v : Byte) : decode (encode (.feed v)).1 (encode (.feed v)).2 = .command (.feed v) := by
  simp [decode, encode, byte_halves]

/-! ### One step -/

theorem step_reset {s : State} {i : Input} {rest : List Input} (h : s.inputs = i :: rest) (hr : i.rst = true) :
    step s = .next (State.resetStep { s with inputs := rest }) := by
  rw [step, takeInput_reset h hr]

theorem step_feed {s : State} {v : Byte} {rest : List Input} (hs : s.started = true)
    (h : s.inputs = Input.ofInstr (.feed v) :: rest) :
    step s = .next { s with
      block := (feed Config.params v s.block).1, out := feedOut (feed Config.params v s.block).2, inputs := rest } := by
  have decoded : decode (Input.ofInstr (.feed v)).cmd (Input.ofInstr (.feed v)).din = .command (.feed v) :=
    decode_encode_feed v
  rw [step, takeInput_command h rfl hs]
  simp only [decoded, exec_feed]

/-- An input that is neither a reset nor a FEED, where its step completes, sets the outputs and nothing else. -/
theorem step_sets_out {s t : State} {i : Input} {rest : List Input} (h : s.inputs = i :: rest) (hr : i.rst = false)
    (notFeed : ∀ x, decode i.cmd i.din ≠ .command (.feed x)) (hstep : step s = .next t) :
    ∃ o, t = { s with out := o, inputs := rest } := by
  obtain ⟨i', rest', hi, hdone⟩ := step_next hstep
  obtain ⟨rfl, rfl⟩ : i = i' ∧ rest = rest' := List.cons.inj (h.symm.trans hi)
  rcases hdone with ⟨hreset, -⟩ | ⟨-, -, ⟨c, hd, hc⟩ | ⟨-, -, rfl⟩⟩
  · simp [hr] at hreset
  · obtain ⟨o, rfl⟩ := exec_sets_out (fun v hv => notFeed v (hv ▸ hd)) hc
    exact ⟨o, rfl⟩
  · exact ⟨_, rfl⟩

/-! ### Runs -/

/-- A run of at least one step that goes on has taken a first step that goes on. -/
theorem step_of_run_succ {s m : State} {k : Nat} (h : Sys2Proof.core.run (k + 1) s = .next m) :
    ∃ s', step s = .next s' ∧ Sys2Proof.core.run k s' = .next m := by
  cases hs : step s with
  | next s' => exact ⟨s', rfl, run_succ_of_next k hs ▸ h⟩
  | fault f => simp [Host.Core.run, show Sys2Proof.core.step s = .fault f from hs] at h
  | refused r => simp [Host.Core.run, show Sys2Proof.core.step s = .refused r from hs] at h

theorem feedAll_append (p : Params) (u v : List Byte) (b : Block) :
    feedAll p (u ++ v) b =
      ((feedAll p v (feedAll p u b).1).1, (feedAll p u b).2 ++ (feedAll p v (feedAll p u b).1).2) := by
  induction u generalizing b with
  | nil => rfl
  | cons x u ih => simp [feedAll_cons, ih]

/-- The outputs of a run of FEEDs: those of its last byte, and `o`, the outputs before it, where it has none. -/
def lastOut (o : Out) (emitted : List Emitted) : Out :=
  (emitted.getLast?.map feedOut).getD o

@[simp] theorem lastOut_nil (o : Out) : lastOut o [] = o := rfl

theorem lastOut_cons (o : Out) (e : Emitted) (es : List Emitted) : lastOut o (e :: es) = lastOut (feedOut e) es := by
  cases es <;> simp [lastOut, List.getLast?_cons]

/-- The outputs after a byte do not depend on what came before it. -/
theorem lastOut_append (o o' : Out) (es : List Emitted) {fs : List Emitted} (h : fs ≠ []) :
    lastOut o (es ++ fs) = lastOut o' fs := by
  cases fs with
  | nil => exact absurd rfl h
  | cons f fs => simp [lastOut, List.getLast?_cons]

/-- A run over the FEEDs of a byte string is `FEED*` on the block, with the outputs of the last byte (R60, R198). -/
theorem run_feeds (w : List Byte) (s : State) (rest : List Input) (hs : s.started = true)
    (h : s.inputs = w.map (fun x => Input.ofInstr (.feed x)) ++ rest) :
    Sys2Proof.core.run w.length s = .next { s with
      block := (feedAll Config.params w s.block).1
      out := lastOut s.out (feedAll Config.params w s.block).2
      inputs := rest } := by
  induction w generalizing s with
  | nil => obtain rfl : s.inputs = rest := h; rfl
  | cons x w ih =>
    have first := step_feed (rest := w.map (fun x => Input.ofInstr (.feed x)) ++ rest) hs h
    rw [feedAll_cons, lastOut_cons]
    exact (run_succ_of_next _ first).trans (ih _ hs rfl)

/-- A run over inputs that are no reset and no FEED, where it completes, sets the outputs and nothing else. -/
theorem run_sets_out (between : List Input) {s m : State} {rest : List Input} (h : s.inputs = between ++ rest)
    (other : ∀ inp ∈ between, inp.rst = false ∧ ∀ x, decode inp.cmd inp.din ≠ .command (.feed x))
    (hrun : Sys2Proof.core.run between.length s = .next m) : ∃ o, m = { s with out := o, inputs := rest } := by
  induction between generalizing s with
  | nil =>
    obtain rfl : s.inputs = rest := h
    cases hrun
    exact ⟨_, rfl⟩
  | cons i between ih =>
    obtain ⟨⟨hrst, notFeed⟩, others⟩ := List.forall_mem_cons.mp other
    obtain ⟨s', hstep, htail⟩ := step_of_run_succ hrun
    obtain ⟨o, rfl⟩ := step_sets_out h hrst notFeed hstep
    obtain ⟨o', rfl⟩ := ih rfl others htail
    exact ⟨o', rfl⟩

/-! ### The statements -/

/-- Settles O7: the step is `resetStep`, and an array of length 0 holds no value. -/
theorem resetStepGivesResetValues : Obligations.ResetStepGivesResetValues := by
  intro s inp rest hi hr
  refine ⟨_, step_reset hi hr, rfl, rfl, rfl, rfl, rfl, ?_, rfl, ?_, ?_, rfl, rfl, rfl, ?_, rfl, rfl, rfl, rfl, rfl,
    rfl, rfl, rfl, rfl⟩
  · intro i; simp [Block.accByte, Block.reset]
  · intro slot i; simp [Block.poolByte, Block.reset]
  · intro slot; simp [Block.poolLength, Block.reset]
  · intro i; simp [Block.escByte, Block.reset]

/-- Settles O14: FEED by its equation, every other command as it sets the outputs alone. -/
theorem onlyFeedWritesTheBlock : Obligations.OnlyFeedWritesTheBlock := by
  intro i s t h
  by_cases hf : ∃ v, i = .feed v
  · obtain ⟨v, rfl⟩ := hf
    rw [exec_feed] at h
    cases h
    exact ⟨rfl, rfl, fun hne => absurd rfl (hne v)⟩
  · obtain ⟨o, rfl⟩ := exec_sets_out (fun v hv => hf ⟨v, hv⟩) h
    exact ⟨rfl, rfl, fun _ => rfl⟩

/-- Settles O47: `finish_line()` alone writes `conn_cid`, and only where it tags the line TCP_SERVER_CONNECT. -/
theorem connCidChangesOnlyByConnect : Obligations.ConnCidChangesOnlyByConnect := by
  intro v s t h
  rw [exec_feed] at h
  cases h
  suffices kept : (feed Config.params v s.block).2.tag ≠ .tcpServerConnect →
      (feed Config.params v s.block).1.connCid = s.block.connCid from
    fun hne => kept fun htag => hne (congrArg some htag)
  apply feed_rule Config.params v s.block
    fun r => r.2.tag ≠ .tcpServerConnect → r.1.connCid = s.block.connCid
  case lineEnd =>
    intro _ _ _ hne
    rw [finishLine_eq] at hne ⊢
    exact if_neg hne
  all_goals intros; rfl

/-- Settles O13: both runs come to `FEED*` of `u ++ v`, as the inputs between write the outputs alone and the bytes of
`v` write those again. -/
theorem splitStreamIsTheWholeStream : Obligations.SplitStreamIsTheWholeStream := by
  intro u v between rest s m hs other feeds split whole hrun
  have fedU := run_feeds u split (between ++ (feeds v ++ rest)) hs (by simp [split, feeds])
  have gap := hrun
  rw [run_add_of_next _ _ fedU] at gap
  obtain ⟨o, rfl⟩ := run_sets_out between rfl other gap
  have splitEnd := (run_add_of_next _ v.length hrun).trans (run_feeds v _ rest hs rfl)
  have wholeEnd := run_feeds (u ++ v) whole rest hs rfl
  rw [List.length_append, feedAll_append] at wholeEnd
  refine ⟨_, _, splitEnd, wholeEnd, rfl, rfl, fun hv => congrArg (State.mk _ · _ _) ?_⟩
  have emits : (feedAll Config.params v (feedAll Config.params u s.block).1).2 ≠ [] := by
    rw [ne_eq, ← List.length_eq_zero_iff, feedAll_length, List.length_eq_zero_iff]
    exact hv
  exact (lastOut_append _ _ _ emits).symm

end Sys2Proof.Machine
end

section
/-! The invariant of the block: what each operation of FEED does to its three parts, that FEED and every step keep it,
and what it says of the read-outs. -/

namespace Sys2Proof.Machine

/-! ### The arrays -/

/-- The fields that `Block.Stored` speaks of: the arrays and their lengths. -/
def Block.arrays (b : Block) : Memory × Nat × Table Memory × Table Nat × Nat × Memory × Nat :=
  (b.acc, b.accLen, b.pool, b.poolLen, b.poolCount, b.escBuf, b.escLen)

namespace Block.Stored

variable {b b' : Block}

/-- `Block.Stored` is a property of the arrays and their lengths alone. -/
theorem of_arrays_eq (h : b.Stored) (same : b'.arrays = b.arrays) : b'.Stored := by
  simp only [Block.arrays, Prod.mk.injEq] at same
  obtain ⟨acc, accLen, pool, poolLen, poolCount, escBuf, escLen⟩ := same
  constructor
  · rw [acc, accLen]; exact h.acc
  · rw [pool, poolCount]; exact h.pool
  · rw [poolLen, poolCount]; exact h.poolLen
  · rw [pool, poolLen]; exact h.lines
  · rw [escBuf, escLen]; exact h.escBuf

theorem newBatch (h : b.Stored) : b.newBatch.Stored :=
  ⟨h.acc, Table.filled_nil, Table.filled_nil, (fun _ _ hr => nomatch hr), h.escBuf⟩

theorem dropLine (h : b.Stored) : b.dropLine.Stored :=
  ⟨Table.filled_nil, h.pool, h.poolLen, h.lines, h.escBuf⟩

theorem beginLine (h : b.Stored) (v : Byte) : (b.beginLine v).Stored :=
  ⟨Table.filled_single v, h.pool, h.poolLen, h.lines, h.escBuf⟩

theorem appendLine (h : b.Stored) (v : Byte) : (b.appendLine v).Stored :=
  ⟨Table.filled_write v h.acc, h.pool, h.poolLen, h.lines, h.escBuf⟩

theorem storeCid (h : b.Stored) (v : Byte) : (b.storeCid v).Stored :=
  ⟨h.acc, h.pool, h.poolLen, h.lines, Table.filled_single v⟩

theorem storeEsc (h : b.Stored) (v : Byte) : (b.storeEsc v).Stored :=
  ⟨h.acc, h.pool, h.poolLen, h.lines, Table.filled_write v h.escBuf⟩

/-- The copied line fills its slot, and its length stands beside it. -/
theorem storeLine (h : b.Stored) : b.storeLine.Stored := by
  unfold Block.storeLine
  split
  · refine ⟨h.acc, Table.filled_write _ h.pool, Table.filled_write _ h.poolLen, ?_, h.escBuf⟩
    intro s line hs
    simp only [Table.read_write] at hs ⊢
    split at hs
    · next hn =>
      cases hs
      have copied := Table.filled_ofList b.line
      rw [show b.line.length = b.accLen from Table.length_upTo h.acc] at copied
      exact ⟨b.accLen, if_pos hn, copied⟩
    · next hn => rw [if_neg hn]; exact h.lines s line hs
  · exact h.of_arrays_eq rfl

end Block.Stored

/-- FEED keeps the arrays filled exactly below their lengths (R22, R24, R28). -/
theorem feed_stored (p : Params) (v : Byte) {b : Block} (h : b.Stored) : (feed p v b).1.Stored := by
  apply feed_rule p v b fun r => r.1.Stored
  case newLine => intros; exact (h.newBatch.beginLine v).of_arrays_eq rfl
  case lineEnd => intros; exact h.storeLine.dropLine.of_arrays_eq rfl
  case dispatched | overflowed => intros; exact h.dropLine.of_arrays_eq rfl
  case appended => intros; exact h.appendLine v
  case bulkCid | udpCid => intros; exact (h.storeCid v).of_arrays_eq rfl
  case lastByte | payload | space | tab | header => intros; exact (h.storeEsc v).of_arrays_eq rfl
  all_goals intros; exact h.of_arrays_eq rfl

/-! ### The bounds of R41 -/

/-- Outside the two bulk states the sub-phase is CIDP: the constructors of `Fsm` make it so. -/
theorem Block.bphase_of_idle (b : Block) (h : b.st = .start ∨ b.st = .response ∨ b.st = .escStart) :
    b.bphase = .cidp := by
  cases hf : b.fsm <;> simp_all [Block.st, Block.bphase]

/-- BULK_DATA has no sub-phase HDRP: the constructors of `Fsm` make it so. -/
theorem Block.bphase_of_bulk (b : Block) (h : b.st = .bulkData) : b.bphase ≠ .hdrp := by
  cases hf : b.fsm with
  | bulkData ph => cases ph <;> simp [Block.bphase, hf]
  | _ => simp [Block.st, hf] at h

/-- The payload sub-phase is that of one of the two bulk states. -/
theorem Block.bphase_eq_payp_iff (b : Block) :
    b.bphase = .payp ↔ b.fsm = .bulkData .payp ∨ b.fsm = .udpBulkData .payp := by
  cases hf : b.fsm with
  | bulkData ph | udpBulkData ph => cases ph <;> simp [Block.bphase, hf]
  | start | response | escStart => simp [Block.bphase, hf]

theorem Block.st_eq_response_iff (b : Block) : b.st = .response ↔ b.fsm = .response := by
  cases hf : b.fsm <;> simp [Block.st, hf]

/-- Only the slots below `pool_count` have a length (R24). -/
theorem Block.lt_poolCount_of_poolLength {b : Block} {slot n : Nat} (h : b.poolLength slot = some n) :
    slot < b.poolCount := by
  by_contra hs
  simp [Block.poolLength, hs] at h

/-- What storing a line does to the lengths: the next slot, where there is one, gets the line's. -/
theorem Block.poolLength_storeLine (b : Block) (s : Nat) : b.storeLine.poolLength s =
    if b.poolCount < 32 ∧ s = b.poolCount then some b.accLen else b.poolLength s := by
  simp only [Block.poolLength, Block.storeLine_poolCount, Block.storeLine_poolLen]
  by_cases room : b.poolCount < 32
  · by_cases hs : s = b.poolCount
    · simp [room, hs]
    · have below : s < b.poolCount + 1 ↔ s < b.poolCount := by omega
      simp [room, hs, below, Table.read_write]
  · simp [room]

namespace Block.R41

variable {p : Params} {b : Block}

/-- Outside RESPONSE no line is in progress, and none is being skipped. -/
theorem no_line (h : b.R41 p) (hf : b.fsm ≠ .response) : b.skip = false ∧ b.accLen = 0 := by
  have hst : b.st ≠ .response := mt b.st_eq_response_iff.mp hf
  refine ⟨?_, h.idle_acc hst⟩
  cases hs : b.skip with
  | false => rfl
  | true => exact absurd (h.skip hs).1 hst

/-- A change of state needs no line in progress, and a byte still due where the payload begins. -/
theorem setFsm (h : b.R41 p) (f : Fsm) (hskip : b.skip = false) (hacc : b.accLen = 0)
    (hpayp : f = .bulkData .payp ∨ f = .udpBulkData .payp → 1 ≤ b.blen) : ({ b with fsm := f } : Block).R41 p :=
  { h with
    bphase_cidp := Block.bphase_of_idle _
    bphase_bulk := Block.bphase_of_bulk _
    skip := fun hs => absurd (hskip.symm.trans hs) Bool.false_ne_true
    payp := fun hp => hpayp ((Block.bphase_eq_payp_iff _).mp hp)
    idle_acc := fun _ => hacc }

theorem setCounters (h : b.R41 p) (d n : Nat) (hd : d ≤ 4) (hn : n ≤ 9999) (hpayp : b.bphase = .payp → 1 ≤ n) :
    ({ b with dcount := d, blen := n } : Block).R41 p :=
  { h with dcount := hd, blen := hn, payp := hpayp }

theorem setDelimiters (h : b.R41 p) (sp tab : Bool) (ht : tab = true → sp = true) :
    ({ b with spSeen := sp, tabSeen := tab } : Block).R41 p :=
  { h with tab_seen := ht }

theorem clearSkip (h : b.R41 p) : ({ b with skip := false } : Block).R41 p :=
  { h with skip := fun hs => nomatch hs }

/-- `esc_kind`, `esc_done` and `conn_cid` are bound by nothing. -/
theorem setUnbound (h : b.R41 p) (kind : Byte) (done : Bool) (cid : Byte) :
    ({ b with escKind := kind, escDone := done, connCid := cid } : Block).R41 p :=
  { h with }

theorem enterEsc (h : b.R41 p) (hskip : b.skip = false) (hacc : b.accLen = 0) : b.enterEsc.R41 p :=
  ((h.setFsm .escStart hskip hacc (by simp)).setCounters 0 0 (Nat.zero_le _) (Nat.zero_le _)
    (fun hp => nomatch hp)).setDelimiters false false id

theorem leaveBulk (h : b.R41 p) (hskip : b.skip = false) (hacc : b.accLen = 0) : b.leaveBulk.R41 p :=
  (h.setFsm .start hskip hacc (by simp)).setCounters 0 0 (Nat.zero_le _) (Nat.zero_le _) (fun hp => nomatch hp)

theorem newBatch (h : b.R41 p) : b.newBatch.R41 p :=
  { h with pool_count := Nat.zero_le _, pool_len := fun _ _ hs => absurd hs (Nat.not_lt_zero _) }

theorem dropLine (h : b.R41 p) : b.dropLine.R41 p :=
  { h with acc_len := Nat.zero_le _, skip := fun hs => ⟨(h.skip hs).1, rfl⟩, idle_acc := fun _ => rfl }

theorem storeLine (h : b.R41 p) : b.storeLine.R41 p := by
  have lengths : ∀ s n, b.storeLine.poolLength s = some n → n ≤ p.lineMax := by
    intro s n hn
    rw [Block.poolLength_storeLine] at hn
    split at hn
    · cases hn; exact h.acc_len
    · exact h.pool_len s n (Block.lt_poolCount_of_poolLength hn) hn
  unfold Block.storeLine at lengths ⊢
  split
  · next room =>
    rw [if_pos room] at lengths
    exact { h with pool_count := room, pool_len := fun s n _ => lengths s n }
  · exact { h with }

theorem finishLine (h : b.R41 p) (hf : b.fsm = .response) (hskip : b.skip = false) :
    (finishLine p b).1.R41 p := by
  have left (f : Fsm) (cid : Byte) (hleft : f = .response ∨ f = .start) :
      ({ b.storeLine.dropLine with connCid := cid, fsm := f } : Block).R41 p :=
    (h.storeLine.dropLine.setUnbound b.storeLine.escKind b.storeLine.escDone cid).setFsm f (by simp [hskip]) rfl
      (by rcases hleft with rfl | rfl <;> simp)
  rw [finishLine_eq]
  refine left _ _ ?_
  split
  · exact .inl hf
  · exact .inr rfl

theorem beginLine (h : b.R41 p) (v : Byte) (hskip : b.skip = false) (hline : 1 ≤ p.lineMax) :
    ({ b.beginLine v with fsm := .response } : Block).R41 p :=
  { h with
    acc_len := hline
    bphase_cidp := Block.bphase_of_idle _
    bphase_bulk := Block.bphase_of_bulk _
    skip := fun hs => absurd (hskip.symm.trans hs) Bool.false_ne_true
    payp := fun hp => nomatch hp
    idle_acc := fun hst => absurd rfl hst }

theorem appendLine (h : b.R41 p) (v : Byte) (hf : b.fsm = .response) (hskip : b.skip = false)
    (room : b.accLen ≠ p.lineMax) : (b.appendLine v).R41 p :=
  { h with
    acc_len := Nat.lt_of_le_of_ne h.acc_len room
    skip := fun hs => absurd (hskip.symm.trans hs) Bool.false_ne_true
    idle_acc := fun hst => absurd (b.st_eq_response_iff.mpr hf) hst }

/-- An overflow drops the line, as `skip` needs. -/
theorem overflow (h : b.R41 p) (hf : b.fsm = .response) : ({ b.dropLine with skip := true } : Block).R41 p :=
  { h.dropLine with skip := fun _ => ⟨b.st_eq_response_iff.mpr hf, rfl⟩ }

theorem storeCid (h : b.R41 p) (v : Byte) : (b.storeCid v).R41 p := by
  obtain ⟨-, fits⟩ := h.esc_len
  refine { h with esc_len := ?_, udp_hdr_len := Nat.zero_le _ }
  rw [Block.storeCid_escLen, Block.storeCid_udpHdrLen]
  omega

theorem storeEsc (h : b.R41 p) (v : Byte) (room : b.escLen < 1 + b.udpHdrLen + 9999) : (b.storeEsc v).R41 p :=
  { h with esc_len := ⟨room, h.esc_len.2⟩ }

theorem storeHdr (h : b.R41 p) (v : Byte) (room : b.udpHdrLen ≠ p.udpHdrMax)
    (hbuf : 1 + p.udpHdrMax + 9999 ≤ p.escBufSize) : (b.storeHdr v).R41 p := by
  have hlt : b.udpHdrLen < p.udpHdrMax := Nat.lt_of_le_of_ne h.udp_hdr_len room
  obtain ⟨hlen, -⟩ := h.esc_len
  refine { h with esc_len := ?_, udp_hdr_len := hlt }
  rw [Block.storeHdr_escLen, Block.storeHdr_udpHdrLen]
  omega

end Block.R41

/-! ### The counters of a frame in progress -/

/-- In the length phase at most three digits are read, and the length read so far has no more (R31, R32). -/
theorem Block.Counts.length_phase {b : Block} (hc : b.Counts)
    (hf : b.fsm = .bulkData .lenp ∨ b.fsm = .udpBulkData .lenp) : b.dcount ≤ 3 ∧ b.blen < 10 ^ b.dcount := by
  rcases hf with hf | hf <;> simp only [Block.Counts, hf] at hc <;> omega

/-- In the payload phase the bytes still due have room (R67). -/
theorem Block.Counts.payload_phase {b : Block} (hc : b.Counts)
    (hf : b.fsm = .bulkData .payp ∨ b.fsm = .udpBulkData .payp) : b.escLen + b.blen ≤ 1 + b.udpHdrLen + 9999 := by
  rcases hf with hf | hf <;> simp only [Block.Counts, hf] at hc <;> omega

/-- FEED keeps what the counters say of the frame in progress (R31, R32, R34, R67). -/
theorem feed_counts (p : Params) (v : Byte) {b : Block} (hc : b.Counts) : (feed p v b).1.Counts := by
  apply feed_rule p v b fun r => r.1.Counts
  case ignored | discarded => intros; exact hc
  case escape | dispatched => intros; exact ⟨rfl, rfl⟩
  case newLine | skipped | answered | notDigit | empty | lastByte | headerFull => intros; exact trivial
  case lineEnd =>
    intro hf _ _
    rw [finishLine_eq]
    by_cases htag : (classify p b.line).tag = .unmatched <;> simp [Block.Counts, htag, hf]
  case overflowed | appended =>
    intro hf _ _
    simp [Block.Counts, hf]
  case bulk | udp => intro hf; simpa [Block.Counts, hf] using hc
  case bulkCid | udpCid =>
    intro hf
    simp only [Block.Counts, hf] at hc
    obtain ⟨hd, hn⟩ := hc
    simp [Block.Counts, hd, hn]
  case digitByte =>
    rintro (hf | hf) hd hv <;> simp only [Block.Counts, hf, pow_succ] at hc ⊢ <;> omega
  case lastDigit =>
    rintro n hn hd hv -
    obtain ⟨hle, hbelow⟩ := hc.length_phase (hn.imp And.left And.left)
    have hthree : b.dcount = 3 := by omega
    rw [hthree] at hbelow
    rcases hn with ⟨hf, rfl⟩ | ⟨hf, rfl⟩ <;> simp only [Block.Counts, hf] at hc ⊢ <;> omega
  case payload =>
    rintro t - (hf | hf) hn <;> simp only [Block.Counts, Block.storeEsc, hf] at hc ⊢ <;> omega
  case space | tab | header =>
    intro hf
    intros
    simp only [Block.Counts, hf] at hc
    obtain ⟨hd, hn, hlen⟩ := hc
    simp [Block.Counts, hf, hd, hn, hlen]
    omega

/-- FEED keeps the bounds of R41. -/
theorem feed_r41 {p : Params} (v : Byte) {b : Block} (hline : 1 ≤ p.lineMax)
    (hbuf : 1 + p.udpHdrMax + 9999 ≤ p.escBufSize) (h : b.R41 p) (hc : b.Counts) : (feed p v b).1.R41 p := by
  apply feed_rule p v b fun r => r.1.R41 p
  case ignored | discarded => intros; exact h
  case escape =>
    intro hf _
    obtain ⟨hskip, hacc⟩ := h.no_line (by simp [hf])
    exact h.enterEsc hskip hacc
  case newLine =>
    intro hf _ _ _
    obtain ⟨hskip, -⟩ := h.no_line (by simp [hf])
    exact h.newBatch.beginLine v hskip hline
  case skipped =>
    intro _ hskip
    obtain ⟨-, hacc⟩ := h.skip hskip
    exact h.clearSkip.setFsm .start rfl hacc (by simp)
  case lineEnd =>
    intro hf _ hskip
    exact h.finishLine hf hskip
  case dispatched =>
    intro _ hskip
    exact h.dropLine.enterEsc hskip rfl
  case overflowed =>
    intro hf _ _
    exact h.overflow hf
  case appended =>
    intro hf hskip room
    exact h.appendLine v hf hskip room
  case bulk =>
    intro hf
    obtain ⟨hskip, hacc⟩ := h.no_line (by simp [hf])
    exact (h.setUnbound v b.escDone b.connCid).setFsm (.bulkData .cidp) hskip hacc (by simp)
  case udp =>
    intro hf
    obtain ⟨hskip, hacc⟩ := h.no_line (by simp [hf])
    exact ((h.setUnbound v b.escDone b.connCid).setDelimiters false false id).setFsm (.udpBulkData .cidp) hskip hacc
      (by simp)
  case answered =>
    intro _ hf _
    obtain ⟨hskip, hacc⟩ := h.no_line (by simp [hf])
    exact h.setFsm .start hskip hacc (by simp)
  case bulkCid | udpCid =>
    intro hf
    obtain ⟨hskip, hacc⟩ := h.no_line (by simp [hf])
    exact (h.storeCid v).setFsm _ hskip hacc (by simp)
  case notDigit =>
    intro hf
    obtain ⟨hskip, hacc⟩ := h.no_line (by rcases hf with hf | hf <;> simp [hf])
    exact h.leaveBulk hskip hacc
  case digitByte =>
    intro hf hd hv
    obtain ⟨-, hbelow⟩ := hc.length_phase hf
    have two : 10 ^ b.dcount ≤ 10 ^ 2 := Nat.pow_le_pow_right (by decide) (by omega)
    refine h.setCounters _ _ (by omega) (by omega) fun hp => ?_
    rw [Block.bphase_eq_payp_iff] at hp
    rcases hf with hf | hf <;> simp [hf] at hp
  case empty =>
    intro _ _ hf
    obtain ⟨hskip, hacc⟩ := h.no_line (by rcases hf with hf | hf <;> simp [hf])
    exact (h.setUnbound b.escKind true b.connCid).leaveBulk hskip hacc
  case lastDigit =>
    intro n hn hd hv hz
    obtain ⟨hthree, hbelow⟩ := hc.length_phase (hn.imp And.left And.left)
    obtain ⟨hskip, hacc⟩ := h.no_line (by rcases hn with ⟨hf, -⟩ | ⟨hf, -⟩ <;> simp [hf])
    have three : 10 ^ b.dcount ≤ 10 ^ 3 := Nat.pow_le_pow_right (by decide) hthree
    have due : 1 ≤ b.blen * 10 + digit v := Nat.one_le_iff_ne_zero.mpr hz
    exact (h.setCounters 4 _ (Nat.le_refl _) (by omega) fun _ => due).setFsm n hskip hacc fun _ => due
  case lastByte =>
    intro _ _ hf _
    obtain ⟨hskip, hacc⟩ := h.no_line (by rcases hf with hf | hf <;> simp [hf])
    have due := h.payp (b.bphase_eq_payp_iff.mpr hf)
    have room := hc.payload_phase hf
    exact ((h.storeEsc v (by omega)).setUnbound b.escKind true b.connCid).leaveBulk hskip hacc
  case payload =>
    intro _ _ hf hn
    have room := hc.payload_phase hf
    have bound := h.blen
    exact (h.storeEsc v (by omega)).setCounters b.dcount (b.blen - 1) h.dcount (by omega) fun _ => by omega
  case headerFull =>
    intro hf
    obtain ⟨hskip, hacc⟩ := h.no_line (by simp [hf])
    exact h.leaveBulk hskip hacc
  case space =>
    intro _ room
    exact (h.storeHdr v room hbuf).setDelimiters true b.tabSeen fun _ => rfl
  case tab =>
    intro hf room hsp
    obtain ⟨hskip, hacc⟩ := h.no_line (by simp [hf])
    exact ((h.storeHdr v room hbuf).setDelimiters b.spSeen true fun _ => hsp).setFsm (.udpBulkData .lenp) hskip hacc
      (by simp)
  case header =>
    intro _ room
    exact h.storeHdr v room hbuf

/-! ### Every step -/

/-- FEED keeps the invariant, whatever the byte. -/
theorem feed_inv (v : Byte) {b : Block} (h : b.Inv Config.params) : (feed Config.params v b).1.Inv Config.params := by
  obtain ⟨hr, hs, hc⟩ := h
  have lineMax := params_lineMax
  exact ⟨feed_r41 v (by omega) params_escBufSize.1 hr hc, feed_stored _ v hs, feed_counts _ v hc⟩

/-- Every command keeps the invariant. -/
theorem exec_inv {i : Instr} {s t : State} (h : s.block.Inv Config.params) (hexec : exec i s = .next t) :
    t.block.Inv Config.params := by
  by_cases hf : ∃ v, i = .feed v
  · obtain ⟨v, rfl⟩ := hf
    rw [exec_feed] at hexec
    cases hexec
    exact feed_inv v h
  · obtain ⟨o, rfl⟩ := exec_sets_out (fun v hv => hf ⟨v, hv⟩) hexec
    exact h

/-- Settles O51: at reset every counter is 0 and every array empty. -/
theorem invariantAtReset : Obligations.InvariantAtReset := by
  have fits := params_escBufSize
  have bounds : Block.reset.R41 Config.params :=
    { acc_len := Nat.zero_le _
      pool_count := Nat.zero_le _
      pool_len := fun _ _ hs => absurd hs (Nat.not_lt_zero _)
      esc_len := ⟨Nat.zero_le _, show 1 + 0 + 9999 ≤ _ by omega⟩
      udp_hdr_len := Nat.zero_le _
      dcount := Nat.zero_le _
      blen := Nat.zero_le _
      bphase_cidp := Block.bphase_of_idle _
      bphase_bulk := Block.bphase_of_bulk _
      skip := fun hs => nomatch hs
      tab_seen := id
      payp := fun hp => nomatch hp
      idle_acc := fun _ => rfl }
  exact ⟨bounds, ⟨rfl, rfl, rfl, fun _ _ hr => (nomatch hr), rfl⟩, trivial⟩

/-- Settles O52: a step resets the block, performs a command, or leaves the block alone. -/
theorem invariantKeptByStep : Obligations.InvariantKeptByStep := by
  intro s t h hstep
  obtain ⟨i, rest, -, ⟨-, rfl⟩ | ⟨-, -, ⟨c, -, hexec⟩ | ⟨e, -, rfl⟩⟩⟩ := step_next hstep
  · exact invariantAtReset
  · exact exec_inv (s := { s with inputs := rest }) h hexec
  · exact h

/-- The invariant holds of every state a host can bring the machine to. -/
theorem reachable_inv {s : State} (h : Reachable s) : s.block.Inv Config.params := by
  induction h with
  | reset => exact invariantAtReset
  | drive s inputs _ ih => exact ih
  | step s t _ hstep ih => exact invariantKeptByStep s t ih hstep

/-- Settles O53, as R41 is a part of the invariant. -/
theorem reachableStatesMeetR41 : Obligations.ReachableStatesMeetR41 :=
  fun _ h => (reachable_inv h).r41

/-! ### Read-outs -/

/-- A read-out completes exactly where it found a value. -/
theorem answerRead_completes_iff (v : Option Half) (s : State) :
    (∃ t, answerRead v s = .next t) ↔ v.isSome = true := by
  simp only [answerRead_eq_next, Option.isSome_iff_exists]
  exact ⟨fun ⟨_, x, hx, _⟩ => ⟨x, hx⟩, fun ⟨x, hx⟩ => ⟨_, x, hx, rfl⟩⟩

theorem exec_prd_completes_iff (slot : Slot) (idx : Half) (s : State) :
    (∃ t, exec (.prd slot idx) s = .next t) ↔ (s.block.poolByte slot.toNat idx.toNat).isSome = true :=
  (answerRead_completes_iff _ s).trans (by rw [Option.isSome_map])

theorem exec_plen_completes_iff (slot : Slot) (s : State) :
    (∃ t, exec (.plen slot) s = .next t) ↔ (s.block.poolLength slot.toNat).isSome = true :=
  (answerRead_completes_iff _ s).trans (by rw [Option.isSome_map])

theorem exec_erd_completes_iff (idx : Half) (s : State) :
    (∃ t, exec (.erd idx) s = .next t) ↔ (s.block.escByte idx.toNat).isSome = true :=
  (answerRead_completes_iff _ s).trans (by rw [Option.isSome_map])

theorem exec_plen_eq_next (slot : Slot) (s t : State) : exec (.plen slot) s = .next t ↔
    ∃ n, s.block.poolLength slot.toNat = some n ∧ t = { s with out := readOut (BitVec.ofNat 16 n) } := by
  show execPlen slot s = .next t ↔ _
  simp [execPlen, answerRead_eq_next]

theorem Block.Stored.poolLength_isSome_iff {b : Block} (h : b.Stored) (slot : Nat) :
    (b.poolLength slot).isSome = true ↔ slot < b.poolCount := by
  rw [Block.poolLength]
  split
  · next hs => simp only [Table.filled_isSome h.poolLen, hs]
  · next hs => simp [hs]

theorem Block.Stored.escByte_isSome_iff {b : Block} (h : b.Stored) (idx : Nat) :
    (b.escByte idx).isSome = true ↔ idx < b.escLen := by
  rw [Block.escByte]
  split
  · next hi => simp only [Table.filled_isSome h.escBuf, hi]
  · next hi => simp [hi]

/-- A byte of a slot holds a value exactly below the length of the slot's line. -/
theorem Block.Stored.poolByte_isSome_iff {b : Block} (h : b.Stored) (slot idx : Nat) :
    (b.poolByte slot idx).isSome = true ↔ ∃ n, b.poolLength slot = some n ∧ idx < n := by
  by_cases hs : slot < b.poolCount
  · obtain ⟨line, hline⟩ := Table.filled_read h.pool hs
    obtain ⟨n, hn, hfilled⟩ := h.lines slot line hline
    by_cases hi : idx < n
    · simp [Block.poolByte, Block.poolLength, hs, hn, hi, hline, Table.filled_isSome hfilled]
    · simp [Block.poolByte, Block.poolLength, hs, hn, hi]
  · simp [Block.poolByte, Block.poolLength, hs]

/-- The length of a stored line fits PLEN's 16 bits. -/
theorem Block.R41.poolLength_lt {b : Block} (h : b.R41 Config.params) {slot n : Nat}
    (hn : b.poolLength slot = some n) : n < 2 ^ 16 := by
  have bound := h.pool_len slot n (Block.lt_poolCount_of_poolLength hn) hn
  have lineMax := params_lineMax
  omega

/-- Settles O58: each read-out completes where its location holds a value, and under the invariant the locations that
do are those below the lengths. -/
theorem readoutsCompleteBelowTheLengths : Obligations.ReadoutsCompleteBelowTheLengths := by
  intro slot idx s h
  refine ⟨?_, (exec_plen_completes_iff slot s).trans (h.stored.poolLength_isSome_iff _),
    (exec_erd_completes_iff idx s).trans (h.stored.escByte_isSome_iff _)⟩
  rw [exec_prd_completes_iff, h.stored.poolByte_isSome_iff]
  simp only [exec_plen_eq_next]
  constructor
  · rintro ⟨n, hn, hi⟩
    refine ⟨_, _, ⟨n, hn, rfl⟩, rfl, ?_⟩
    rwa [BitVec.toNat_ofNat, Nat.mod_eq_of_lt (h.r41.poolLength_lt hn)]
  · rintro ⟨t, m, ⟨n, hn, rfl⟩, ⟨rfl⟩, hi⟩
    rw [BitVec.toNat_ofNat, Nat.mod_eq_of_lt (h.r41.poolLength_lt hn)] at hi
    exact ⟨n, hn, hi⟩

end Sys2Proof.Machine
end

section
/-! The block's memory: what FEED does to the escape buffer and to the pool, the length in a header, and a repeated
read-out. -/

namespace Sys2Proof.Machine

/-! ### The escape buffer -/

/-- Only the indices below `esc_len` hold a value (R28). -/
theorem Block.lt_escLen_of_escByte {b : Block} {k : Nat} {x : Byte} (h : b.escByte k = some x) : k < b.escLen := by
  by_contra hk
  simp [Block.escByte, hk] at h

/-- The CID byte is all that the escape buffer holds after it (R66). -/
theorem Block.escByte_storeCid (b : Block) (v : Byte) (k : Nat) :
    (b.storeCid v).escByte k = if k = 0 then some v else none := by
  simp [Block.escByte, Table.read_cons, eq_comm]

/-- A stored byte goes to the first free index, so it replaces none (R66, R168). -/
theorem Block.escByte_storeEsc_of_some {b : Block} {k : Nat} {x : Byte} (v : Byte) (h : b.escByte k = some x) :
    (b.storeEsc v).escByte k = some x := by
  have below := Block.lt_escLen_of_escByte h
  rw [Block.escByte_storeEsc, if_neg (by omega), h]

/-- A FEED that is not of a CID byte keeps every byte of the escape buffer (R66). -/
theorem feed_keeps_escByte (p : Params) (v : Byte) {b : Block} {k : Nat} {x : Byte}
    (notCid : ¬ (b.fsm = .bulkData .cidp ∨ b.fsm = .udpBulkData .cidp)) (h : b.escByte k = some x) :
    (feed p v b).1.escByte k = some x := by
  apply feed_rule p v b fun r => r.1.escByte k = some x
  case bulkCid => intro hf; exact absurd (.inl hf) notCid
  case udpCid => intro hf; exact absurd (.inr hf) notCid
  case lineEnd => intros; simpa [finishLine_eq, Block.escByte] using h
  case lastByte | payload | space | tab | header => intros; exact Block.escByte_storeEsc_of_some v h
  all_goals intros; exact h

/-- The FEED of a CID byte, in either bulk state. -/
theorem feed_cid (p : Params) (v : Byte) {b : Block} (h : b.fsm = .bulkData .cidp ∨ b.fsm = .udpBulkData .cidp) :
    ∃ f, feed p v b = ({ b.storeCid v with fsm := f }, .nothing) :=
  h.elim (fun hf => ⟨_, feed_bulk_cidp p v b hf⟩) (fun hf => ⟨_, feed_udp_cidp p v b hf⟩)

/-- Settles O45: a FEED but that of a CID byte keeps the buffer's bytes, and every other command keeps the block. -/
theorem escapeBufferLivesForTheFrame : Obligations.EscapeBufferLivesForTheFrame := by
  refine ⟨fun i s t k x hexec notCid hx => ?_, fun v s hcid => ⟨_, exec_feed v s, ?_⟩⟩
  · by_cases hf : ∃ v, i = .feed v
    · obtain ⟨v, rfl⟩ := hf
      rw [exec_feed] at hexec
      cases hexec
      exact feed_keeps_escByte _ v (fun hcid => notCid ⟨⟨v, rfl⟩, hcid⟩) hx
    · obtain ⟨o, rfl⟩ := exec_sets_out (fun v hv => hf ⟨v, hv⟩) hexec
      exact hx
  · obtain ⟨f, hfeed⟩ := feed_cid Config.params v hcid
    simp only [hfeed]
    refine ⟨rfl, s.block.escByte_storeCid v 0, fun k hk => ?_⟩
    exact (s.block.escByte_storeCid v k).trans (if_neg (by omega))

/-- Settles O54: the invariant bounds `esc_len` after the FEED too. -/
theorem escapeBufferNeverOverflows : Obligations.EscapeBufferNeverOverflows := by
  intro v s t h hexec hlen
  obtain ⟨hleft, hfits⟩ := (exec_inv h hexec).r41.esc_len
  omega

/-! ### The pool -/

/-- Only the slots below `pool_count` hold bytes (R24). -/
theorem Block.lt_poolCount_of_poolByte {b : Block} {slot k : Nat} {x : Byte} (h : b.poolByte slot k = some x) :
    slot < b.poolCount := by
  by_contra hs
  simp [Block.poolByte, hs] at h

/-- `new_batch()` leaves no slot a length (R65). -/
@[simp] theorem Block.poolLength_newBatch (b : Block) (slot : Nat) : b.newBatch.poolLength slot = none := by
  simp [Block.poolLength]

/-- `new_batch()` leaves no slot a byte (R65). -/
@[simp] theorem Block.poolByte_newBatch (b : Block) (slot k : Nat) : b.newBatch.poolByte slot k = none := by
  simp [Block.poolByte]

/-- Storing a line keeps the bytes of the lines already stored (R65). -/
theorem Block.poolByte_storeLine_of_lt {b : Block} {slot : Nat} (k : Nat) (hs : slot < b.poolCount) :
    b.storeLine.poolByte slot k = b.poolByte slot k := by
  have other : slot ≠ b.poolCount := by omega
  by_cases room : b.poolCount < 32
  · have below : slot < b.poolCount + 1 := by omega
    simp [Block.poolByte, room, hs, below, Table.read_write_other _ _ other]
  · simp [Block.poolByte, room]

/-- What the pool of `b` holds, that of `b'` holds too (R65). -/
def Block.PoolLives (b b' : Block) : Prop :=
  (∀ slot n, b.poolLength slot = some n → b'.poolLength slot = some n) ∧
  ∀ slot k x, b.poolByte slot k = some x → b'.poolByte slot k = some x

/-- `Block.PoolLives` speaks of the pool, its lengths and its count alone. -/
theorem Block.PoolLives.of_pool_eq {b b' : Block} (pool : b'.pool = b.pool) (poolLen : b'.poolLen = b.poolLen)
    (poolCount : b'.poolCount = b.poolCount) : b.PoolLives b' := by
  simp only [Block.PoolLives, Block.poolLength, Block.poolByte, pool, poolLen, poolCount]
  exact ⟨fun _ _ h => h, fun _ _ _ h => h⟩

/-- A line is stored in the first free slot, so it replaces none. -/
theorem Block.PoolLives.storeLine (b : Block) : b.PoolLives b.storeLine := by
  refine ⟨fun slot n h => ?_, fun slot k x h => ?_⟩
  · have below := Block.lt_poolCount_of_poolLength h
    rw [Block.poolLength_storeLine, if_neg (by omega), h]
  · rw [Block.poolByte_storeLine_of_lt k (Block.lt_poolCount_of_poolByte h), h]

/-- A FEED that does not begin a new batch keeps the stored lines (R65). -/
theorem feed_poolLives (p : Params) (v : Byte) {b : Block}
    (sameBatch : ¬ (b.fsm = .start ∧ v ≠ byteCR ∧ v ≠ byteLF ∧ v ≠ byteESC)) : b.PoolLives (feed p v b).1 := by
  apply feed_rule p v b fun r => b.PoolLives r.1
  case newLine => intro hf hcr hlf hesc; exact absurd ⟨hf, hcr, hlf, hesc⟩ sameBatch
  case lineEnd => intros; exact Block.PoolLives.storeLine b
  all_goals intros; exact .of_pool_eq rfl rfl rfl

/-- The FEED that begins a new batch (R163). -/
theorem feed_newLine (p : Params) {v : Byte} {b : Block} (hf : b.fsm = .start) (hcr : v ≠ byteCR) (hlf : v ≠ byteLF)
    (hesc : v ≠ byteESC) : feed p v b = ({ b.newBatch.beginLine v with fsm := .response }, .nothing) := by
  rw [feed_start p v b hf]
  obtain ⟨rfl | rfl, -⟩ | ⟨rfl, -⟩ | ⟨-, -, -, h⟩ := feedStart_cases v b
  · exact absurd rfl hcr
  · exact absurd rfl hlf
  · exact absurd rfl hesc
  · exact h

/-- Settles O46: `new_batch()` empties the pool, any other FEED keeps the stored lines, and every other command keeps
the block. -/
theorem poolLinesLiveForTheBatch : Obligations.PoolLinesLiveForTheBatch := by
  intro i s t hexec begins
  constructor
  · rintro ⟨v, rfl, hf, hcr, hlf, hesc⟩
    rw [exec_feed, feed_newLine _ hf hcr hlf hesc] at hexec
    cases hexec
    exact ⟨rfl, s.block.poolLength_newBatch, s.block.poolByte_newBatch⟩
  · intro sameBatch
    by_cases hf : ∃ v, i = .feed v
    · obtain ⟨v, rfl⟩ := hf
      rw [exec_feed] at hexec
      cases hexec
      exact feed_poolLives _ v fun h => sameBatch ⟨v, rfl, h⟩
    · obtain ⟨o, rfl⟩ := exec_sets_out (fun v hv => hf ⟨v, hv⟩) hexec
      exact Block.PoolLives.of_pool_eq rfl rfl rfl

/-! ### Runs, headers and read-outs -/

/-- Settles O12: `run_feeds` gives the whole state after the run, of which the statement names three fields. -/
theorem runOverFeedsIsFeedAll : Obligations.RunOverFeedsIsFeedAll :=
  fun w s rest hs h => ⟨_, run_feeds w s rest hs h, rfl, rfl, hs⟩

/-- Settles O24: byte 6 stands above the 8 bits of byte 5. -/
theorem declaredLengthIsLittleEndian : Obligations.DeclaredLengthIsLittleEndian := by
  intro h
  have split : (hdrLen h).toNat = (hdrByte h 6).toNat * 2 ^ 8 + (hdrByte h 5).toNat := append_toNat _ _
  omega

/-- A read-out that answers from the block leaves the block, so it answers the same again (R57). -/
theorem answerRead_repeats (read : Block → Option Half) {s t : State} (h : answerRead (read s.block) s = .next t) :
    t.block = s.block ∧ answerRead (read t.block) t = .next t := by
  obtain ⟨x, hx, rfl⟩ := (answerRead_eq_next _ s t).mp h
  exact ⟨rfl, (answerRead_eq_next _ _ _).mpr ⟨x, hx, rfl⟩⟩

/-- Settles O59: each of the three commands answers a read of the block. -/
theorem readoutsRepeat : Obligations.ReadoutsRepeat := by
  rintro i s t (⟨slot, idx, rfl⟩ | ⟨slot, rfl⟩ | ⟨idx, rfl⟩) h
  · exact answerRead_repeats (fun b => (b.poolByte slot.toNat idx.toNat).map fun v : Byte => v.setWidth 16) h
  · exact answerRead_repeats (fun b => (b.poolLength slot.toNat).map fun n => BitVec.ofNat 16 n) h
  · exact answerRead_repeats (fun b => (b.escByte idx.toNat).map fun v : Byte => v.setWidth 16) h

end Sys2Proof.Machine
end

section
/-! The encoding: the reserved-zero fields of a command word, the two round trips of decoder and encoder, the step that
performs a decoded command, and the outputs of each command. -/

namespace Sys2Proof

/-! ### The fields of a word -/

/-- Every word is made of the fields of R96. -/
theorem exists_cmdWord (w : Cmd) :
    ∃ f31_16 f15_13 f12_8 f7_5 f4_3 op, w = cmdWord f31_16 f15_13 f12_8 f7_5 f4_3 op :=
  ⟨_, _, _, _, _, _, (cmdWord_fields w).symm⟩

/-- The field of FEED's byte is made of two fields of R96. -/
theorem halves_of_append (hi : BitVec 3) (lo : BitVec 5) :
    (hi ++ lo).extractLsb' 5 3 = hi ∧ (hi ++ lo).extractLsb' 0 5 = lo := by
  constructor <;> apply BitVec.eq_of_toNat_eq <;> rw [extract_toNat, append_toNat] <;> omega

theorem append_eq_zero_iff {m n : Nat} (x : BitVec m) (y : BitVec n) : x ++ y = 0#(m + n) ↔ x = 0 ∧ y = 0 := by
  simp [BitVec.toNat_eq]

section Rows

variable {f31_16 : Half} {f15_13 : BitVec 3} {f12_8 : BitVec 5} {f7_5 : BitVec 3} {f4_3 : BitVec 2} {din : Hdr}
  {i : Instr}

@[simp] theorem cmdWord_f31_3 (op : BitVec 3) : (cmdWord f31_16 f15_13 f12_8 f7_5 f4_3 op).extractLsb' 3 29 =
    f31_16 ++ f15_13 ++ f12_8 ++ f7_5 ++ f4_3 := by
  apply BitVec.eq_of_toNat_eq
  rw [extract_toNat, cmdWord_toNat, append_toNat, append_toNat, append_toNat, append_toNat]
  omega

/-! The reserved-zero fields of R71's rows are zero exactly where each field of R96 in them is. -/

@[simp] theorem f7_3_eq_zero_iff : f7_5 ++ f4_3 = 0#5 ↔ f7_5 = 0 ∧ f4_3 = 0 :=
  append_eq_zero_iff f7_5 f4_3

@[simp] theorem f31_13_eq_zero_iff : f31_16 ++ f15_13 = 0#19 ↔ f31_16 = 0 ∧ f15_13 = 0 :=
  append_eq_zero_iff f31_16 f15_13

@[simp] theorem f15_5_eq_zero_iff :
    f15_13 ++ f12_8 ++ f7_5 = 0#11 ↔ (f15_13 = 0 ∧ f12_8 = 0) ∧ f7_5 = 0 :=
  (append_eq_zero_iff (f15_13 ++ f12_8) f7_5).trans (and_congr_left' (append_eq_zero_iff f15_13 f12_8))

@[simp] theorem f15_3_eq_zero_iff :
    f15_13 ++ f12_8 ++ f7_5 ++ f4_3 = 0#13 ↔ ((f15_13 = 0 ∧ f12_8 = 0) ∧ f7_5 = 0) ∧ f4_3 = 0 :=
  (append_eq_zero_iff (f15_13 ++ f12_8 ++ f7_5) f4_3).trans (and_congr_left' f15_5_eq_zero_iff)

@[simp] theorem f31_3_eq_zero_iff : f31_16 ++ f15_13 ++ f12_8 ++ f7_5 ++ f4_3 = 0#29 ↔
    (((f31_16 = 0 ∧ f15_13 = 0) ∧ f12_8 = 0) ∧ f7_5 = 0) ∧ f4_3 = 0 :=
  (append_eq_zero_iff (f31_16 ++ f15_13 ++ f12_8 ++ f7_5) f4_3).trans <| and_congr_left' <|
    (append_eq_zero_iff (f31_16 ++ f15_13 ++ f12_8) f7_5).trans <| and_congr_left' <|
      (append_eq_zero_iff (f31_16 ++ f15_13) f12_8).trans <| and_congr_left' f31_13_eq_zero_iff

/-! ### The command of a word is encoded as that word, one lemma for each value of `op` -/

theorem encode_of_decode_nop (h : decode (cmdWord f31_16 f15_13 f12_8 f7_5 f4_3 0) din = .command i) :
    i.wf = true ∧ encode i = (cmdWord f31_16 f15_13 f12_8 f7_5 f4_3 0, 0) := by
  obtain ⟨⟨⟨⟨⟨rfl, rfl⟩, rfl⟩, rfl⟩, rfl⟩, rfl⟩ :
      ((((f31_16 = 0 ∧ f15_13 = 0) ∧ f12_8 = 0) ∧ f7_5 = 0) ∧ f4_3 = 0) ∧ .nop = i := by
    simpa [decode, Decoded.when_eq_command] using h
  exact ⟨rfl, rfl⟩

theorem encode_of_decode_feed (h : decode (cmdWord f31_16 f15_13 f12_8 f7_5 f4_3 1) din = .command i) :
    i.wf = true ∧ encode i = (cmdWord f31_16 f15_13 f12_8 f7_5 f4_3 1, 0) := by
  obtain ⟨⟨⟨rfl, rfl⟩, rfl⟩, rfl⟩ : ((f7_5 = 0 ∧ f4_3 = 0) ∧ f31_16 = 0) ∧ .feed (f15_13 ++ f12_8) = i := by
    simpa [decode, Decoded.when_eq_command] using h
  obtain ⟨hi, lo⟩ := halves_of_append f15_13 f12_8
  exact ⟨rfl, by rw [encode, hi, lo]⟩

theorem encode_of_decode_henc (h : decode (cmdWord f31_16 f15_13 f12_8 f7_5 f4_3 2) din = .command i) :
    i.wf = true ∧ encode i = (cmdWord f31_16 f15_13 f12_8 f7_5 f4_3 2, 0) := by
  obtain rfl | rfl | rfl | rfl := sel_cases f4_3
  · obtain ⟨⟨⟨rfl, rfl⟩, rfl⟩, rfl⟩ : ((f15_13 = 0 ∧ f12_8 = 0) ∧ f7_5 = 0) ∧ .hencWreq f31_16 = i := by
      simpa [decode, decodeHenc, Decoded.when_eq_command] using h
    exact ⟨rfl, rfl⟩
  · obtain ⟨⟨⟨rfl, rfl⟩, rfl⟩, rfl⟩ : ((f15_13 = 0 ∧ f12_8 = 0) ∧ f7_5 = 0) ∧ .hencRreq f31_16 = i := by
      simpa [decode, decodeHenc, Decoded.when_eq_command] using h
    exact ⟨rfl, rfl⟩
  · obtain ⟨⟨⟨rfl, rfl⟩, rfl⟩, rfl⟩ : ((f15_13 = 0 ∧ f12_8 = 0) ∧ f7_5 = 0) ∧ .hencDfh f31_16 = i := by
      simpa [decode, decodeHenc, Decoded.when_eq_command] using h
    exact ⟨rfl, rfl⟩
  · obtain rfl : .reservedHencKsel11 (cmdWord f31_16 f15_13 f12_8 f7_5 3 2) = i := by simpa [decode, decodeHenc] using h
    simp [Instr.wf, isReservedHencKsel11, encode]

theorem encode_of_decode_hval (h : decode (cmdWord f31_16 f15_13 f12_8 f7_5 f4_3 3) din = .command i) :
    i.wf = true ∧ encode i = (cmdWord f31_16 f15_13 f12_8 f7_5 f4_3 3, if f4_3 = 3 then 0 else din) := by
  obtain rfl | rfl | rfl | rfl := sel_cases f4_3
  · obtain ⟨⟨⟨rfl, rfl⟩, rfl⟩, rfl⟩ : ((f15_13 = 0 ∧ f12_8 = 0) ∧ f7_5 = 0) ∧ .hvalWrsp f31_16 din = i := by
      simpa [decode, decodeHval, Decoded.when_eq_command] using h
    exact ⟨rfl, rfl⟩
  · obtain ⟨⟨⟨rfl, rfl⟩, rfl⟩, rfl⟩ : ((f15_13 = 0 ∧ f12_8 = 0) ∧ f7_5 = 0) ∧ .hvalRrsp f31_16 din = i := by
      simpa [decode, decodeHval, Decoded.when_eq_command] using h
    exact ⟨rfl, rfl⟩
  · obtain ⟨⟨⟨rfl, rfl⟩, rfl⟩, rfl⟩ : ((f15_13 = 0 ∧ f12_8 = 0) ∧ f7_5 = 0) ∧ .hvalDth f31_16 din = i := by
      simpa [decode, decodeHval, Decoded.when_eq_command] using h
    exact ⟨rfl, rfl⟩
  · obtain rfl : .reservedHvalMode11 (cmdWord f31_16 f15_13 f12_8 f7_5 3 3) = i := by simpa [decode, decodeHval] using h
    simp [Instr.wf, isReservedHvalMode11, encode]

theorem encode_of_decode_prd (h : decode (cmdWord f31_16 f15_13 f12_8 f7_5 f4_3 4) din = .command i) :
    i.wf = true ∧ encode i = (cmdWord f31_16 f15_13 f12_8 f7_5 f4_3 4, 0) := by
  obtain ⟨⟨⟨rfl, rfl⟩, rfl⟩, rfl⟩ : ((f7_5 = 0 ∧ f4_3 = 0) ∧ f15_13 = 0) ∧ .prd f12_8 f31_16 = i := by
    simpa [decode, Decoded.when_eq_command] using h
  exact ⟨rfl, rfl⟩

theorem encode_of_decode_plen (h : decode (cmdWord f31_16 f15_13 f12_8 f7_5 f4_3 5) din = .command i) :
    i.wf = true ∧ encode i = (cmdWord f31_16 f15_13 f12_8 f7_5 f4_3 5, 0) := by
  obtain ⟨⟨⟨rfl, rfl⟩, rfl, rfl⟩, rfl⟩ : ((f7_5 = 0 ∧ f4_3 = 0) ∧ f31_16 = 0 ∧ f15_13 = 0) ∧ .plen f12_8 = i := by
    simpa [decode, Decoded.when_eq_command] using h
  exact ⟨rfl, rfl⟩

theorem encode_of_decode_erd (h : decode (cmdWord f31_16 f15_13 f12_8 f7_5 f4_3 6) din = .command i) :
    i.wf = true ∧ encode i = (cmdWord f31_16 f15_13 f12_8 f7_5 f4_3 6, 0) := by
  obtain ⟨⟨⟨⟨rfl, rfl⟩, rfl⟩, rfl⟩, rfl⟩ :
      (((f15_13 = 0 ∧ f12_8 = 0) ∧ f7_5 = 0) ∧ f4_3 = 0) ∧ .erd f31_16 = i := by
    simpa [decode, Decoded.when_eq_command] using h
  exact ⟨rfl, rfl⟩

theorem encode_of_decode_op111 (h : decode (cmdWord f31_16 f15_13 f12_8 f7_5 f4_3 7) din = .command i) :
    i.wf = true ∧ encode i = (cmdWord f31_16 f15_13 f12_8 f7_5 f4_3 7, 0) := by
  obtain rfl : .reservedOp111 (cmdWord f31_16 f15_13 f12_8 f7_5 f4_3 7) = i := by
    simpa [decode] using h
  simp [Instr.wf, isReservedOp111, encode]

end Rows

/-! ### The round trips -/

/-- Settles O1, constructor by constructor: the decoder finds the fields the encoder wrote, and the selectors a reserved
word has by its well-formedness. -/
theorem decodeOfEncodeIsTheInstruction : Obligations.DecodeOfEncodeIsTheInstruction := by
  intro i wf
  cases i with
  | feed b => exact Machine.decode_encode_feed b
  | nop | prd | plen | erd => simp [decode, encode]
  | hencWreq | hencRreq | hencDfh => simp [decode, decodeHenc, encode]
  | hvalWrsp | hvalRrsp | hvalDth => simp [decode, decodeHval, encode]
  | reservedOp111 w =>
    have op : w.extractLsb' 0 3 = 7#3 := by simpa [Instr.wf, isReservedOp111] using wf
    simp [decode, encode, op]
  | reservedHencKsel11 w =>
    obtain ⟨op, ksel⟩ : w.extractLsb' 0 3 = 2#3 ∧ w.extractLsb' 3 2 = 3#2 := by
      simpa [Instr.wf, isReservedHencKsel11] using wf
    simp [decode, decodeHenc, encode, op, ksel]
  | reservedHvalMode11 w =>
    obtain ⟨op, mode⟩ : w.extractLsb' 0 3 = 3#3 ∧ w.extractLsb' 3 2 = 3#2 := by
      simpa [Instr.wf, isReservedHvalMode11] using wf
    simp [decode, decodeHval, encode, op, mode]

/-- Settles O2: the word is taken apart into its fields, and `op` selects the row. -/
theorem encodeOfDecodeIsTheWord : Obligations.EncodeOfDecodeIsTheWord := by
  intro w din i h
  obtain ⟨f31_16, f15_13, f12_8, f7_5, f4_3, op, rfl⟩ := exists_cmdWord w
  rw [cmdWord_op, cmdWord_f4_3]
  have noDin (other : op ≠ 3) (row : i.wf = true ∧ encode i = (cmdWord f31_16 f15_13 f12_8 f7_5 f4_3 op, 0)) :
      i.wf = true ∧ (encode i).1 = cmdWord f31_16 f15_13 f12_8 f7_5 f4_3 op ∧
        (encode i).2 = if op = 3#3 ∧ f4_3 ≠ 3#2 then din else 0 := by
    obtain ⟨hwf, henc⟩ := row
    rw [henc, if_neg fun hval => other hval.1]
    exact ⟨hwf, rfl, rfl⟩
  obtain rfl | rfl | rfl | rfl | rfl | rfl | rfl | rfl := op_cases op
  · exact noDin (by decide) (encode_of_decode_nop h)
  · exact noDin (by decide) (encode_of_decode_feed h)
  · exact noDin (by decide) (encode_of_decode_henc h)
  · obtain ⟨hwf, henc⟩ := encode_of_decode_hval h
    rw [henc]
    by_cases mode : f4_3 = 3 <;> simp [hwf, mode]
  · exact noDin (by decide) (encode_of_decode_prd h)
  · exact noDin (by decide) (encode_of_decode_plen h)
  · exact noDin (by decide) (encode_of_decode_erd h)
  · exact noDin (by decide) (encode_of_decode_op111 h)

/-- Settles O4, word by word. -/
theorem decodesTheWordsOfTheSpec : Obligations.DecodesTheWordsOfTheSpec := by
  unfold Obligations.DecodesTheWordsOfTheSpec
  decide

/-- Settles O60: the words of P3 and the escapes are computed, the two expansions are the model's own. -/
theorem pseudoInstructionsExpand : Obligations.PseudoInstructionsExpand := by
  refine ⟨?_, ?_, fun _ _ => rfl, fun _ => rfl⟩ <;> decide

end Sys2Proof

namespace Sys2Proof.Machine

/-! ### The step of a decoded command -/

/-- Settles O5: `takeInput` answers the command, and the decoder reads it. -/
theorem stepRunsTheDecodedCommand : Obligations.StepRunsTheDecodedCommand := by
  intro s inp rest i hs hi hr hd
  simp only [step, takeInput_command hi hr hs, hd]

theorem decodeTableWord_eq_some_iff (nbits w : Nat) (i : Instr) :
    decodeTableWord nbits w = some i ↔ decode (tableCmd nbits w) (tableDin nbits w) = .command i := by
  unfold decodeTableWord
  cases decode (tableCmd nbits w) (tableDin nbits w) <;> simp

/-- Settles O6: `withFetchWord` makes the word the next input of a started machine. -/
theorem fetchWordIsRunNext : Obligations.FetchWordIsRunNext := by
  intro s nbits w i h
  exact stepRunsTheDecodedCommand (s.withFetchWord nbits w) _ s.inputs i rfl rfl rfl
    ((decodeTableWord_eq_some_iff nbits w i).mp h)

/-- Settles O9, by what `takeInput` answers where no input is pending. -/
theorem noInputIsRefused : Obligations.NoInputIsRefused := by
  intro s hi
  rw [step, takeInput_nil hi]

/-! ### The outputs of a command -/

/-- HENC puts out a header, or reports a length above the maximum (R104). -/
theorem hencOut_cases (p : Params) (kind : HencKind) (len : Half) :
    (∃ h, hencOut p kind len = { Out.quiet with hdr := some h, encErr := some false }) ∨
      hencOut p kind len = { Out.quiet with encErr := some true } := by
  unfold hencOut
  split
  · exact .inr rfl
  · exact .inl ⟨_, rfl⟩

/-- A read-out that completes puts out what it read (R220, R221, R223). -/
theorem answerRead_out {v : Option Half} {s t : State} (h : answerRead v s = .next t) : ∃ x, t.out = readOut x := by
  obtain ⟨x, -, rfl⟩ := (answerRead_eq_next v s t).mp h
  exact ⟨x, rfl⟩

/-- Settles O15: HENC by its two answers, a read-out by the value it found, every other command by its equation. -/
theorem commandsDefineTheirOutputs : Obligations.CommandsDefineTheirOutputs := by
  intro i s t h
  cases i with
  | prd | plen | erd => exact answerRead_out h
  | hencWreq | hencRreq | hencDfh => cases h; exact hencOut_cases _ _ _
  | nop | reservedOp111 | reservedHencKsel11 | reservedHvalMode11 => cases h; rfl
  | feed => cases h; exact ⟨_, _, _, rfl⟩
  | hvalWrsp | hvalRrsp | hvalDth => cases h; exact ⟨_, _, _, _, _, _, rfl⟩

/-! ### Tags -/

theorem Tag.terminal_iff (t : Tag) : t.terminal = true ↔ t ≠ .none ∧ t ≠ .unmatched := by
  simp [Tag.terminal]

/-- The codes are the numbers 0 to 21, and 0 is that of NONE (R81). -/
theorem Tag.code_range (t : Tag) : (1 ≤ t.code.toNat ↔ t ≠ .none) ∧ t.code.toNat ≤ 21 := by
  cases t <;> decide

/-- Settles O32, by the range of the codes. -/
theorem terminalTags : Obligations.TerminalTags := by
  intro t
  obtain ⟨hpos, hle⟩ := t.code_range
  rw [Tag.terminal_iff, hpos]
  simp [hle]

end Sys2Proof.Machine
end

section
/-! A bulk frame fed from START: what `FEED*` does over its lead-in, its header, its length and its payload, and what
the block holds after the whole frame. -/

namespace Sys2Proof.Machine

/-! ### Runs of writes -/

/-- The values `vs` written at `n`, `n + 1` and so on (R168 over a byte string). -/
def Table.writeAll {α : Type} (t : Table α) (n : Nat) : List α → Table α
  | [] => t
  | v :: vs => Table.writeAll (Table.write t n v) (n + 1) vs

theorem Table.upTo_writeAll {α : Type} (t : Table α) (n : Nat) (vs : List α) :
    Table.upTo (Table.writeAll t n vs) (n + vs.length) = Table.upTo t n ++ vs := by
  induction vs generalizing t n with
  | nil => simp [Table.writeAll]
  | cons v vs ih =>
    have next := ih (Table.write t n v) (n + 1)
    rw [Table.upTo_write, List.append_assoc] at next
    rwa [List.length_cons, Nat.add_comm vs.length, ← Nat.add_assoc]

theorem Table.read_writeAll_of_lt {α : Type} (t : Table α) {i n : Nat} (vs : List α) (h : i < n) :
    Table.read (Table.writeAll t n vs) i = Table.read t i := by
  induction vs generalizing t n with
  | nil => rfl
  | cons v vs ih =>
    rw [Table.writeAll, ih _ (by omega), Table.read_write_other _ _ (by omega)]

/-- `store_esc` of each byte of `w` (R168). -/
def Block.storeBytes (b : Block) (w : List Byte) : Block :=
  { b with escBuf := Table.writeAll b.escBuf b.escLen w, escLen := b.escLen + w.length }

/-- The bytes of `w` stored as header bytes (R193 to R195). -/
def Block.storeHdrBytes (b : Block) (w : List Byte) : Block :=
  { b.storeBytes w with udpHdrLen := b.udpHdrLen + w.length }

theorem Block.storeBytes_cons (b : Block) (v : Byte) (w : List Byte) :
    b.storeBytes (v :: w) = (b.storeEsc v).storeBytes w := by
  simp [Block.storeBytes, Block.storeEsc, Table.writeAll, Nat.add_assoc, Nat.add_comm]

theorem Block.storeHdrBytes_nil (b : Block) : b.storeHdrBytes [] = b := rfl

theorem Block.storeHdrBytes_cons (b : Block) (v : Byte) (w : List Byte) :
    b.storeHdrBytes (v :: w) = (b.storeHdr v).storeHdrBytes w := by
  simp [Block.storeHdrBytes, Block.storeHdr, Block.storeEsc, Block.storeBytes, Table.writeAll, Nat.add_assoc,
    Nat.add_comm]

theorem Block.storeHdrBytes_append (b : Block) (u w : List Byte) :
    b.storeHdrBytes (u ++ w) = (b.storeHdrBytes u).storeHdrBytes w := by
  induction u generalizing b with
  | nil => rfl
  | cons v u ih => rw [List.cons_append, Block.storeHdrBytes_cons, ih, Block.storeHdrBytes_cons]

/-- The block after the last byte of a frame, `payload` its payload (R189, R191, R196). -/
def Block.deliver (b : Block) (payload : List Byte) : Block :=
  { b.storeBytes payload with escDone := true }.leaveBulk

/-- The block after the tab that ends a UDP header, `hdr` the whole header (R194). -/
def Block.endHeader (b : Block) (hdr : List Byte) : Block :=
  { b.storeHdrBytes hdr with spSeen := true, tabSeen := true, fsm := .udpBulkData .lenp }

/-- The block with `k` digits of a length read, of value `n` (R31, R32). -/
def Block.setLength (b : Block) (n k : Nat) : Block :=
  { b with blen := n, dcount := k }

/-- The block after ESC and a kind, which leaves it in `cidp` (R161, R181, R182). -/
def Block.awaitCid (b : Block) (kind : Byte) (cidp : Fsm) : Block :=
  { b.enterEsc with escKind := kind, fsm := cidp }

/-- The block after ESC, a kind and a CID, which leaves it in `next` (R186, R192). -/
def Block.beginFrame (b : Block) (kind cid : Byte) (next : Fsm) : Block :=
  { (b.awaitCid kind next).storeCid cid with fsm := next }

@[simp] theorem Block.setLength_dcount (b : Block) (n k : Nat) : (b.setLength n k).dcount = k := rfl

@[simp] theorem Block.setLength_blen (b : Block) (n k : Nat) : (b.setLength n k).blen = n := rfl

theorem Block.setLength_zero {b : Block} (hn : b.blen = 0) (hk : b.dcount = 0) : b.setLength 0 0 = b := by
  cases b; cases hn; cases hk; rfl

/-- The bytes of the escape buffer below `esc_len` (R28). -/
def Block.escBytes (b : Block) : List Byte :=
  Table.upTo b.escBuf b.escLen

theorem Block.escBytes_storeBytes (b : Block) (w : List Byte) : (b.storeBytes w).escBytes = b.escBytes ++ w :=
  Table.upTo_writeAll b.escBuf b.escLen w

theorem Block.escBytes_endHeader (b : Block) (hdr : List Byte) : (b.endHeader hdr).escBytes = b.escBytes ++ hdr :=
  b.escBytes_storeBytes hdr

theorem Block.escBytes_deliver (b : Block) (payload : List Byte) :
    (b.deliver payload).escBytes = b.escBytes ++ payload :=
  b.escBytes_storeBytes payload

theorem Block.escBytes_beginFrame (b : Block) (kind cid : Byte) (next : Fsm) :
    (b.beginFrame kind cid next).escBytes = [cid] := rfl

/-- The payload of R42 is what follows the CID and the header. -/
theorem Block.escPayload_of_escBytes {b : Block} {cid : Byte} {hdr payload : List Byte}
    (h : b.escBytes = cid :: (hdr ++ payload)) (hl : b.udpHdrLen = hdr.length) : b.escPayload = payload := by
  show b.escBytes.drop (1 + b.udpHdrLen) = payload
  rw [h, hl, Nat.add_comm, List.drop_succ_cons, List.drop_left]

/-- A delivered payload stands after the bytes the buffer held, which stay. -/
theorem Block.escByte_deliver_of_lt (b : Block) {i : Nat} (payload : List Byte) (h : i < b.escLen) :
    (b.deliver payload).escByte i = b.escByte i := by
  have below : i < (b.deliver payload).escLen := Nat.lt_add_right _ h
  rw [Block.escByte, Block.escByte, if_pos below, if_pos h]
  exact Table.read_writeAll_of_lt b.escBuf payload h

/-! ### Runs of FEED in two parts -/

theorem feedAll_cons_eq {p : Params} {v : Byte} {w : List Byte} {b b' b'' : Block} {e : Emitted} {es : List Emitted}
    (first : feed p v b = (b', e)) (rest : feedAll p w b' = (b'', es)) : feedAll p (v :: w) b = (b'', e :: es) := by
  rw [feedAll_cons, first, rest]

theorem feedAll_append_eq {p : Params} {u w : List Byte} {b b' b'' : Block} {es fs : List Emitted}
    (first : feedAll p u b = (b', es)) (rest : feedAll p w b' = (b'', fs)) :
    feedAll p (u ++ w) b = (b'', es ++ fs) := by
  rw [feedAll_append, first, rest]

/-! ### The two bulk states -/

/-- The length phase, the payload phase and the tag of a bulk state (R187 to R191, R196). -/
inductive BulkState : Fsm → Fsm → Tag → Prop where
  | bulk : BulkState (.bulkData .lenp) (.bulkData .payp) .bulkDataRx
  | udp : BulkState (.udpBulkData .lenp) (.udpBulkData .payp) .udpBulkDataRx

variable {lenp payp : Fsm} {tag : Tag}

theorem BulkState.feed_lenp (hs : BulkState lenp payp tag) (p : Params) (v : Byte) {b : Block} (h : b.fsm = lenp) :
    feed p v b = feedLength tag payp v b := by
  cases hs
  · exact feed_bulk_lenp p v b h
  · exact feed_udp_lenp p v b h

theorem BulkState.feed_payp (hs : BulkState lenp payp tag) (p : Params) (v : Byte) {b : Block} (h : b.fsm = payp) :
    feed p v b = feedPayload tag v b := by
  cases hs
  · exact feed_bulk_payp p v b h
  · exact feed_udp_payp p v b h

/-! ### The payload -/

/-- A payload byte before the last is stored (R191, R196). -/
theorem feed_payloadByte (hs : BulkState lenp payp tag) (p : Params) (v : Byte) {b : Block} (hf : b.fsm = payp)
    (more : b.blen - 1 ≠ 0) : feed p v b = ({ b.storeEsc v with blen := b.blen - 1 }, .of tag false) := by
  rw [hs.feed_payp p v hf, feedPayload, if_neg more]

/-- The last payload byte is stored and ends the frame (R191, R196). -/
theorem feed_lastPayloadByte (hs : BulkState lenp payp tag) (p : Params) (v : Byte) {b : Block} (hf : b.fsm = payp)
    (last : b.blen - 1 = 0) :
    feed p v b = ({ b.storeEsc v with escDone := true }.leaveBulk, .of tag true) := by
  rw [hs.feed_payp p v hf, feedPayload, if_pos last]

/-- A payload of as many bytes as are due is stored whole, and its last byte alone is final. -/
theorem feedAll_payload (hs : BulkState lenp payp tag) (p : Params) (v : Byte) (w : List Byte) {b : Block}
    (hf : b.fsm = payp) (due : b.blen = w.length + 1) :
    feedAll p (v :: w) b = (b.deliver (v :: w),
      List.replicate w.length (Emitted.of tag false) ++ [Emitted.of tag true]) := by
  induction w generalizing v b with
  | nil => exact feedAll_cons_eq (feed_lastPayloadByte hs p v hf (by rw [due]; rfl)) rfl
  | cons v' w ih =>
    rw [List.length_cons] at due
    have rest := ih v' (b := { b.storeEsc v with blen := b.blen - 1 }) hf (by simp only; omega)
    rw [show b.deliver (v :: v' :: w) = (b.storeEsc v).deliver (v' :: w) by
      rw [Block.deliver, Block.storeBytes_cons]; rfl]
    exact feedAll_cons_eq (feed_payloadByte hs p v hf (by omega)) rest

/-! ### The emissions of a frame -/

/-- What the bytes of a frame emit from `k` bytes before its length on: nothing up to the payload, the tag for each
payload byte, and the last byte alone is final (R188 to R191). -/
def frameEmissions (tag : Tag) (k : Nat) (payload : List Byte) : List Emitted :=
  List.replicate (k + if payload = [] then 3 else 4) Emitted.nothing ++
    List.replicate (payload.length - 1) (Emitted.of tag false) ++ [Emitted.of tag true]

theorem replicate_append_frameEmissions (tag : Tag) (j k : Nat) (payload : List Byte) :
    List.replicate j Emitted.nothing ++ frameEmissions tag k payload = frameEmissions tag (j + k) payload := by
  simp only [frameEmissions, ← List.append_assoc, List.replicate_append_replicate, Nat.add_assoc]

/-- The three bytes of a lead-in counted with those of the length. -/
theorem frameEmissions_lead (tag : Tag) (k : Nat) (payload : List Byte) :
    frameEmissions tag (3 + k) payload = List.replicate (k + if payload = [] then 6 else 7) Emitted.nothing ++
      List.replicate (payload.length - 1) (Emitted.of tag false) ++ [Emitted.of tag true] := by
  have count : (3 + k + if payload = [] then 3 else 4) = k + if payload = [] then 6 else 7 := by
    split <;> omega
  rw [frameEmissions, count]

/-! ### The length -/

/-- The first three digits accumulate (R188). -/
theorem feed_digit (hs : BulkState lenp payp tag) (p : Params) {d k m n : Nat} {b : Block} (hf : b.fsm = lenp)
    (early : k < 3) (total : m * 10 + d % 10 = n) :
    feed p (BitVec.ofNat 8 (0x30 + d % 10)) (b.setLength m k) = (b.setLength n (k + 1), .nothing) := by
  obtain ⟨isDig, value⟩ := digit_byte d
  rw [hs.feed_lenp p _ (b := b.setLength m k) hf, feedLength, if_pos isDig, Block.setLength_dcount, if_pos early, value,
    Block.setLength_blen, total]
  rfl

/-- The fourth digit ends an empty frame (R189). -/
theorem feed_lastDigit_of_zero (hs : BulkState lenp payp tag) (p : Params) {d m : Nat} {b : Block} (hf : b.fsm = lenp)
    (total : m * 10 + d % 10 = 0) :
    feed p (BitVec.ofNat 8 (0x30 + d % 10)) (b.setLength m 3) = (b.deliver [], .of tag true) := by
  obtain ⟨isDig, value⟩ := digit_byte d
  rw [hs.feed_lenp p _ (b := b.setLength m 3) hf, feedLength, if_pos isDig, Block.setLength_dcount,
    if_neg (Nat.lt_irrefl 3), value, Block.setLength_blen, if_pos total]
  rfl

/-- The fourth digit of a length above zero starts the payload (R190). -/
theorem feed_lastDigit_of_pos (hs : BulkState lenp payp tag) (p : Params) {d m n : Nat} {b : Block} (hf : b.fsm = lenp)
    (total : m * 10 + d % 10 = n) (pos : n ≠ 0) : feed p (BitVec.ofNat 8 (0x30 + d % 10)) (b.setLength m 3) =
      ({ b.setLength n 4 with fsm := payp }, .nothing) := by
  obtain ⟨isDig, value⟩ := digit_byte d
  rw [hs.feed_lenp p _ (b := b.setLength m 3) hf, feedLength, if_pos isDig, Block.setLength_dcount,
    if_neg (Nat.lt_irrefl 3), value, Block.setLength_blen, total, if_neg pos]
  rfl

/-- The digits of a length but the last. -/
def leadingDigits (n : Nat) : List Byte :=
  [BitVec.ofNat 8 (0x30 + n / 1000 % 10), BitVec.ofNat 8 (0x30 + n / 100 % 10), BitVec.ofNat 8 (0x30 + n / 10 % 10)]

theorem lengthDigits_append (n : Nat) (w : List Byte) :
    lengthDigits n ++ w = leadingDigits n ++ BitVec.ofNat 8 (0x30 + n % 10) :: w := rfl

theorem feedAll_leadingDigits (hs : BulkState lenp payp tag) (p : Params) {n : Nat} (hn : n ≤ 9999) {b : Block}
    (hf : b.fsm = lenp) :
    feedAll p (leadingDigits n) (b.setLength 0 0) = (b.setLength (n / 10) 3, List.replicate 3 Emitted.nothing) :=
  feedAll_cons_eq (feed_digit hs p hf (by decide) (show 0 * 10 + n / 1000 % 10 = n / 1000 by omega)) <|
    feedAll_cons_eq (feed_digit hs p hf (by decide) (show n / 1000 * 10 + n / 100 % 10 = n / 100 by omega)) <|
      feedAll_cons_eq (feed_digit hs p hf (by decide) (show n / 100 * 10 + n / 10 % 10 = n / 10 by omega)) rfl

/-- The length and the payload, from the start of the length phase: the payload is stored whole, and the last byte,
that of the length where the payload is empty, is final. -/
theorem feedAll_lengthAndPayload (hs : BulkState lenp payp tag) (p : Params) {payload : List Byte}
    (hn : payload.length ≤ 9999) {b : Block} (hf : b.fsm = lenp) (hl : b.blen = 0) (hd : b.dcount = 0) :
    feedAll p (lengthDigits payload.length ++ payload) b =
      (b.deliver payload, frameEmissions tag 0 payload) := by
  have leading := feedAll_leadingDigits hs p hn hf
  have total : payload.length / 10 * 10 + payload.length % 10 = payload.length := by omega
  rw [Block.setLength_zero hl hd] at leading
  rw [lengthDigits_append]
  cases payload with
  | nil => exact feedAll_append_eq leading (feedAll_cons_eq (feed_lastDigit_of_zero hs p hf total) rfl)
  | cons v w =>
    have last := feed_lastDigit_of_pos hs p hf total (Nat.succ_ne_zero _)
    exact (feedAll_append_eq leading (feedAll_cons_eq last (feedAll_payload hs p v w rfl rfl))).trans rfl

/-! ### The header of a UDP frame -/

/-- Header bytes within the bound, with no tab after a space, are stored, and the spaces among them noted
(R193, R195). -/
theorem feedAll_headerText (p : Params) (w : List Byte) {b : Block} (hf : b.fsm = .udpBulkData .hdrp)
    (room : b.udpHdrLen + w.length ≤ p.udpHdrMax) (seen : b.spSeen = true → byteHT ∉ w)
    (later : ∀ before after : List Byte, w = before ++ byteSP :: after → byteHT ∉ after) :
    feedAll p w b = ({ b.storeHdrBytes w with spSeen := b.spSeen || decide (byteSP ∈ w) },
      List.replicate w.length Emitted.nothing) := by
  induction w generalizing b with
  | nil => simp [Block.storeHdrBytes_nil]
  | cons v w ih =>
    rw [List.length_cons] at room
    have later' : ∀ before after : List Byte, w = before ++ byteSP :: after → byteHT ∉ after :=
      fun before after e => later (v :: before) after (congrArg (v :: ·) e)
    rw [Block.storeHdrBytes_cons]
    obtain ⟨full, -⟩ | ⟨-, rfl, h⟩ | ⟨-, rfl, sp, -⟩ | ⟨-, notSpace, -, h⟩ := feedHeader_cases p v b
    · omega
    · have rest := ih (b := { b.storeHdr byteSP with spSeen := true }) hf
        (by simp only [Block.storeHdr_udpHdrLen]; omega) (fun _ => later [] w rfl) later'
      rw [decide_eq_true List.mem_cons_self, Bool.or_true]
      exact feedAll_cons_eq ((feed_udp_hdrp p _ b hf).trans h) rest
    · exact absurd List.mem_cons_self (seen sp)
    · have rest := ih (b := b.storeHdr v) hf (by rw [Block.storeHdr_udpHdrLen]; omega)
        (fun sp => List.not_mem_of_not_mem_cons (seen sp)) later'
      have sameSpaces : byteSP ∈ v :: w ↔ byteSP ∈ w := List.mem_cons.trans (or_iff_right (Ne.symm notSpace))
      rw [decide_eq_decide.mpr sameSpaces]
      exact feedAll_cons_eq ((feed_udp_hdrp p _ b hf).trans h) rest

/-- The tab that ends a header (R194). -/
theorem feed_headerEnd (p : Params) {b : Block} (hf : b.fsm = .udpBulkData .hdrp) (room : b.udpHdrLen ≠ p.udpHdrMax)
    (seen : b.spSeen = true) :
    feed p byteHT b = ({ b.storeHdr byteHT with tabSeen := true, fsm := .udpBulkData .lenp }, .nothing) := by
  rw [feed_udp_hdrp p _ b hf, feedHeader, if_neg room, if_neg (by decide), if_pos ⟨rfl, seen⟩]

/-- A whole header is stored, and its last byte starts the length phase. -/
theorem feedAll_udpHeader (p : Params) {text : List Byte} (htext : udpText text)
    (fits : text.length + 1 ≤ p.udpHdrMax) {b : Block} (hf : b.fsm = .udpBulkData .hdrp) (hl : b.udpHdrLen = 0)
    (hsp : b.spSeen = false) :
    feedAll p (text ++ [byteHT]) b =
      (b.endHeader (text ++ [byteHT]), List.replicate (text ++ [byteHT]).length Emitted.nothing) := by
  obtain ⟨hasSpace, noTab⟩ := htext
  have textFed := feedAll_headerText p text hf (by omega) (by simp [hsp]) noTab
  rw [decide_eq_true hasSpace, Bool.or_true] at textFed
  rw [Block.endHeader, Block.storeHdrBytes_append, List.length_append, ← List.replicate_append_replicate]
  refine feedAll_append_eq textFed (feedAll_cons_eq (feed_headerEnd p hf ?_ rfl) rfl)
  show b.udpHdrLen + text.length ≠ p.udpHdrMax
  omega

/-! ### The lead-in -/

theorem feed_escape (p : Params) {b : Block} (hf : b.fsm = .start) : feed p byteESC b = (b.enterEsc, .nothing) := by
  rw [feed_start p _ b hf]
  rfl

/-- The lead-in of a TCP or HTTP frame (R181, R186). -/
theorem feedAll_bulkLead (p : Params) {kind : Byte} (cid : Byte) {b : Block} (hf : b.fsm = .start)
    (hk : kind = byteZ ∨ kind = byteH) :
    feedAll p [byteESC, kind, cid] b =
      (b.beginFrame kind cid (.bulkData .lenp), List.replicate 3 Emitted.nothing) := by
  have kindFed : feed p kind b.enterEsc = (b.awaitCid kind (.bulkData .cidp), .nothing) := by
    rw [feed_escStart p _ _ rfl, feedEscStart, if_pos hk]
    rfl
  have cidFed : feed p cid (b.awaitCid kind (.bulkData .cidp)) = (b.beginFrame kind cid (.bulkData .lenp), .nothing) :=
    feed_bulk_cidp p cid _ rfl
  exact feedAll_cons_eq (feed_escape p hf) <| feedAll_cons_eq kindFed <| feedAll_cons_eq cidFed rfl

/-- The lead-in of a UDP frame (R182, R192). -/
theorem feedAll_udpLead (p : Params) (cid : Byte) {b : Block} (hf : b.fsm = .start) :
    feedAll p [byteESC, byteLowerY, cid] b =
      (b.beginFrame byteLowerY cid (.udpBulkData .hdrp), List.replicate 3 Emitted.nothing) := by
  have kindFed : feed p byteLowerY b.enterEsc = (b.awaitCid byteLowerY (.udpBulkData .cidp), .nothing) := by
    rw [feed_escStart p _ _ rfl]
    rfl
  have cidFed : feed p cid (b.awaitCid byteLowerY (.udpBulkData .cidp)) =
      (b.beginFrame byteLowerY cid (.udpBulkData .hdrp), .nothing) :=
    feed_udp_cidp p cid _ rfl
  exact feedAll_cons_eq (feed_escape p hf) <| feedAll_cons_eq kindFed <| feedAll_cons_eq cidFed rfl

/-! ### Whole frames -/

theorem bulkFrame_eq (kind cid : Byte) (payload : List Byte) : bulkFrame kind cid payload =
    [byteESC, kind, cid] ++ (lengthDigits payload.length ++ payload) := rfl

theorem udpFrame_eq (cid : Byte) (hdr payload : List Byte) : udpFrame cid hdr payload =
    [byteESC, byteLowerY, cid] ++ (hdr ++ (lengthDigits payload.length ++ payload)) := rfl

/-- A whole TCP or HTTP frame: the block after it, and what each byte emitted. -/
theorem feedAll_bulkFrame (p : Params) {kind : Byte} (cid : Byte) {payload : List Byte} {b : Block}
    (hf : b.fsm = .start) (hk : kind = byteZ ∨ kind = byteH) (hn : payload.length ≤ 9999) :
    feedAll p (bulkFrame kind cid payload) b =
      ((b.beginFrame kind cid (.bulkData .lenp)).deliver payload, frameEmissions .bulkDataRx 3 payload) := by
  have rest := feedAll_lengthAndPayload .bulk p hn (b := b.beginFrame kind cid (.bulkData .lenp)) rfl rfl rfl
  rw [bulkFrame_eq, feedAll_append_eq (feedAll_bulkLead p cid hf hk) rest, replicate_append_frameEmissions]

/-- A whole UDP frame: the block after it, and what each byte emitted. -/
theorem feedAll_udpFrame (p : Params) (cid : Byte) {text payload : List Byte} {b : Block} (hf : b.fsm = .start)
    (htext : udpText text) (fits : text.length + 1 ≤ p.udpHdrMax) (hn : payload.length ≤ 9999) :
    feedAll p (udpFrame cid (text ++ [byteHT]) payload) b =
      (((b.beginFrame byteLowerY cid (.udpBulkData .hdrp)).endHeader (text ++ [byteHT])).deliver payload,
        frameEmissions .udpBulkDataRx (3 + (text ++ [byteHT]).length) payload) := by
  have header := feedAll_udpHeader p htext fits (b := b.beginFrame byteLowerY cid (.udpBulkData .hdrp)) rfl rfl rfl
  have rest := feedAll_append_eq header (feedAll_lengthAndPayload .udp p hn rfl rfl rfl)
  rw [udpFrame_eq, feedAll_append_eq (feedAll_udpLead p cid hf) rest, replicate_append_frameEmissions,
    replicate_append_frameEmissions, Nat.add_zero]

/-- Settles O48: the buffer holds the CID and the payload, and the frame's emissions are those of its lead-in, its
length and its payload. -/
theorem bulkFrameIsDelivered : Obligations.BulkFrameIsDelivered := by
  intro b kind cid payload hf hk hn r
  have fed : r = _ := feedAll_bulkFrame Config.params cid hf hk hn
  clear_value r
  subst fed
  have bytes := (b.beginFrame kind cid (.bulkData .lenp)).escBytes_deliver payload
  have firstByte := (b.beginFrame kind cid (.bulkData .lenp)).escByte_deliver_of_lt payload Nat.one_pos
  have payloadLen : 1 + payload.length - 1 - 0 = payload.length := by omega
  have emitted := frameEmissions_lead .bulkDataRx 0 payload
  rw [Nat.zero_add] at emitted
  exact ⟨rfl, rfl, rfl, rfl, rfl, rfl, firstByte, Block.escPayload_of_escBytes (hdr := []) bytes rfl, payloadLen,
    rfl, rfl, rfl, rfl, rfl, emitted⟩

/-- Settles O49: the buffer holds the CID, the header and the payload, and the header's bytes emit nothing. -/
theorem udpFrameIsDelivered : Obligations.UdpFrameIsDelivered := by
  intro b cid text payload hf htext fits hn hdr r
  have fed : r = _ := feedAll_udpFrame Config.params cid hf htext fits hn
  clear_value r
  subst fed
  have bytes : (((b.beginFrame byteLowerY cid (.udpBulkData .hdrp)).endHeader hdr).deliver payload).escBytes =
      cid :: (hdr ++ payload) := by
    rw [Block.escBytes_deliver, Block.escBytes_endHeader, Block.escBytes_beginFrame]
    rfl
  have hdrLen : 0 + hdr.length = hdr.length := Nat.zero_add _
  have payloadLen : 1 + hdr.length + payload.length - 1 - (0 + hdr.length) = payload.length := by omega
  exact ⟨rfl, rfl, rfl, rfl, rfl, rfl, hdrLen, bytes, Block.escPayload_of_escBytes bytes hdrLen, payloadLen, rfl, rfl,
    rfl, rfl, rfl, frameEmissions_lead .udpBulkDataRx hdr.length payload⟩

end Sys2Proof.Machine
end

section
/-! The header codec: the checksum as a sum of bytes, the fields of the header HENC builds, and HVAL's checks in
numbers. -/

namespace Sys2Proof.Machine

/-! ### The fields of a header -/

theorem hdrLen_eq_ofNat (h : Hdr) :
    hdrLen h = BitVec.ofNat 16 ((hdrByte h 5).toNat + 256 * (hdrByte h 6).toNat) := by
  rw [← declaredLengthIsLittleEndian h, BitVec.ofNat_toNat, BitVec.setWidth_eq]

/-- The reserved bytes stand in the order of R103, byte 2 lowest. -/
theorem hdrRsv_eq_ofNat (h : Hdr) : hdrRsv h =
    BitVec.ofNat 24 ((hdrByte h 2).toNat + 256 * (hdrByte h 3).toNat + 65536 * (hdrByte h 4).toNat) := by
  apply BitVec.eq_of_toNat_eq
  rw [hdrRsv, append_toNat, append_toNat, BitVec.toNat_ofNat]
  omega

/-! ### The checksum -/

/-- Bytes 1 to 6, those that the checksum covers (R100). -/
def coveredBytes (h : Hdr) : List Byte :=
  [1, 2, 3, 4, 5, 6].map (hdrByte h)

/-- The exact sum `s` of R100. -/
def coveredSum (h : Hdr) : Nat :=
  ((coveredBytes h).map BitVec.toNat).sum

theorem coveredSum_eq (h : Hdr) : coveredSum h = (hdrByte h 1).toNat + (hdrByte h 2).toNat + (hdrByte h 3).toNat +
    (hdrByte h 4).toNat + (hdrByte h 5).toNat + (hdrByte h 6).toNat := by
  simp [coveredSum, coveredBytes, Nat.add_assoc]

/-- The sum with one of its bytes taken out of it. -/
theorem coveredSum_eq_add_rest (h : Hdr) {k : Nat} (hk : k ∈ [1, 2, 3, 4, 5, 6]) : coveredSum h =
    (hdrByte h k).toNat + (([1, 2, 3, 4, 5, 6].erase k).map fun j => (hdrByte h j).toNat).sum :=
  (List.sum_map_erase (fun j => (hdrByte h j).toNat) hk).symm

/-- R100 in numbers: the complement of a byte is its difference from 0xFF. -/
theorem cksum_toNat (h : Hdr) : (cksum h).toNat = 0xFF - coveredSum h % 256 := by
  rw [cksum, ← coveredSum_eq, BitVec.toNat_not, BitVec.toNat_ofNat]

/-- The checksum tells the sums apart modulo 256 and no further. -/
theorem cksum_eq_iff (h h' : Hdr) : cksum h = cksum h' ↔ coveredSum h % 256 = coveredSum h' % 256 := by
  rw [← BitVec.toNat_inj, cksum_toNat, cksum_toNat]
  omega

theorem cksum_eq_of_perm {h h' : Hdr} (perm : (coveredBytes h).Perm (coveredBytes h')) : cksum h = cksum h' := by
  rw [cksum_eq_iff, coveredSum, coveredSum, (perm.map BitVec.toNat).sum_eq]

/-- Two bytes that differ do so modulo 256, so one changed byte always shows (R101 (b)). -/
theorem cksum_ne_of_one_byte {h h' : Hdr} {k : Nat} (hk : k ∈ [1, 2, 3, 4, 5, 6])
    (differ : hdrByte h k ≠ hdrByte h' k)
    (same : ∀ j ∈ [1, 2, 3, 4, 5, 6], j ≠ k → hdrByte h j = hdrByte h' j) : cksum h ≠ cksum h' := by
  have rest : ([1, 2, 3, 4, 5, 6].erase k).map (fun j => (hdrByte h j).toNat) =
      ([1, 2, 3, 4, 5, 6].erase k).map fun j => (hdrByte h' j).toNat := by
    refine List.map_congr_left fun j hj => ?_
    obtain ⟨hne, hmem⟩ := (List.Nodup.mem_erase_iff (by decide)).mp hj
    rw [same j hmem hne]
  have values : (hdrByte h k).toNat ≠ (hdrByte h' k).toNat := mt BitVec.eq_of_toNat_eq differ
  rw [Ne, cksum_eq_iff, coveredSum_eq_add_rest h hk, coveredSum_eq_add_rest h' hk, rest]
  omega

/-- Settles O22: `coveredSum` is the sum of the statement. -/
theorem checksumIsComplementOfSum : Obligations.ChecksumIsComplementOfSum := by
  intro h
  rw [cksum_toNat, coveredSum_eq]

/-- Settles O23: all four parts are about the sum of the covered bytes modulo 256. For (d), byte 5 is 1 in the one
header and byte 6 in the other. -/
theorem checksumProperties : Obligations.ChecksumProperties := by
  refine ⟨fun h h' same => cksum_eq_of_perm (.of_eq same), fun h h' k low high differ same => ?_,
    fun h h' perm => cksum_eq_of_perm perm, ?_⟩
  · have covered : ∀ j, j ∈ [1, 2, 3, 4, 5, 6] ↔ 1 ≤ j ∧ j ≤ 6 := by
      intro j
      simp only [List.mem_cons, List.not_mem_nil, or_false]
      omega
    exact cksum_ne_of_one_byte ((covered k).mpr ⟨low, high⟩) differ fun j hj =>
      same j ((covered j).mp hj).1 ((covered j).mp hj).2
  · refine ⟨mkHdr 0 0 0 0 0 1 0 0, mkHdr 0 0 0 0 0 0 1 0, by decide, by decide, ?_, by decide⟩
    intro j low high
    interval_cases j <;> rfl

/-! ### HENC -/

section Henc

variable (p : Params) (op : Byte) (len : Half)

/-- The header of R104: its last byte is the checksum of the header itself. -/
theorem hencHdr_eq : hencHdr p op len =
    mkHdr p.magic op 0 0 0 (len.extractLsb' 0 8) (len.extractLsb' 8 8) (cksum (hencHdr p op len)) := by
  refine congrArg (mkHdr p.magic op 0 0 0 (len.extractLsb' 0 8) (len.extractLsb' 8 8)) (cksum_congr _ _ ?_)
  intro k low high
  interval_cases k <;> simp [hencHdr]

theorem hdrByte_hencHdr_magic : hdrByte (hencHdr p op len) 0 = p.magic := hdrByte_mkHdr_0 ..

theorem hdrByte_hencHdr_op : hdrByte (hencHdr p op len) 1 = op := hdrByte_mkHdr_1 ..

theorem hdrByte_hencHdr_cksum : hdrByte (hencHdr p op len) 7 = cksum (hencHdr p op len) := by
  conv_lhs => rw [hencHdr_eq]
  exact hdrByte_mkHdr_7 ..

theorem hdrRsv_hencHdr : hdrRsv (hencHdr p op len) = 0 := by
  rw [hencHdr_eq, hdrRsv, hdrByte_mkHdr_2, hdrByte_mkHdr_3, hdrByte_mkHdr_4]
  rfl

theorem hdrLen_hencHdr : hdrLen (hencHdr p op len) = len := by
  rw [hencHdr_eq, hdrLen, hdrByte_mkHdr_5, hdrByte_mkHdr_6]
  apply BitVec.eq_of_toNat_eq
  rw [append_toNat, extract_toNat, extract_toNat]
  omega

theorem coveredSum_hencHdr :
    coveredSum (hencHdr p op len) = op.toNat + len.toNat % 256 + len.toNat / 256 := by
  rw [coveredSum_eq, hencHdr_eq, hdrByte_mkHdr_1, hdrByte_mkHdr_2, hdrByte_mkHdr_3, hdrByte_mkHdr_4, hdrByte_mkHdr_5,
    hdrByte_mkHdr_6, extract_toNat, extract_toNat]
  show op.toNat + 0 + 0 + 0 + _ + _ = _
  omega

/-- The header of R104 from numbers. -/
theorem hencHdr_eq_ofNat : hencHdr p op len =
    mkHdr p.magic op 0 0 0 (BitVec.ofNat 8 (len.toNat % 256)) (BitVec.ofNat 8 (len.toNat / 256))
      (BitVec.ofNat 8 (0xFF - (op.toNat + len.toNat % 256 + len.toNat / 256) % 256)) := by
  have low : len.extractLsb' 0 8 = BitVec.ofNat 8 (len.toNat % 256) := by
    apply BitVec.eq_of_toNat_eq; rw [extract_toNat, BitVec.toNat_ofNat]; omega
  have high : len.extractLsb' 8 8 = BitVec.ofNat 8 (len.toNat / 256) := by
    apply BitVec.eq_of_toNat_eq; rw [extract_toNat, BitVec.toNat_ofNat]; omega
  have check : cksum (hencHdr p op len) =
      BitVec.ofNat 8 (0xFF - (op.toNat + len.toNat % 256 + len.toNat / 256) % 256) := by
    rw [← coveredSum_hencHdr p, ← cksum_toNat, BitVec.ofNat_toNat, BitVec.setWidth_eq]
  rw [hencHdr_eq, low, high, check]

end Henc

/-- A header stands in HENC's outputs where the length fits, and is the one of R104. -/
theorem eq_hencHdr_of_hencOut {p : Params} {kind : HencKind} {len : Half} {h : Hdr}
    (out : (hencOut p kind len).hdr = some h) : h = hencHdr p (hencOp p kind) len := by
  rw [hencOut] at out
  split at out
  · cases out
  · exact (Option.some.inj out).symm

/-- Every HENC puts out the outputs of its kind. -/
theorem exec_henc {i : Instr} {len : Half} (s : State)
    (hi : i = .hencWreq len ∨ i = .hencRreq len ∨ i = .hencDfh len) :
    ∃ kind, exec i s = .next { s with out := hencOut Config.params kind len } := by
  obtain rfl | rfl | rfl := hi
  · exact ⟨.wreq, rfl⟩
  · exact ⟨.rreq, rfl⟩
  · exact ⟨.dfh, rfl⟩

/-- Settles O19: HENC's outputs with the header from numbers, for each kind. -/
theorem hencBuildsTheHeaderOrReports : Obligations.HencBuildsTheHeaderOrReports := by
  intro len s lo hi header built
  have outputs : ∀ kind : HencKind, { s with out := hencOut Config.params kind len } =
      built (hencOp Config.params kind) (hencMax Config.params kind) := by
    intro kind
    simp only [hencOut, hencHdr_eq_ofNat, built, header, lo, hi, gt_iff_lt]
    split <;> rfl
  exact ⟨congrArg _ (outputs .wreq), congrArg _ (outputs .rreq), congrArg _ (outputs .dfh)⟩

/-! ### HVAL -/

/-- Every HVAL puts out the outputs of its mode. -/
theorem exec_hval {i : Instr} {elen : Half} {h : Hdr} (s : State)
    (hi : i = .hvalWrsp elen h ∨ i = .hvalRrsp elen h ∨ i = .hvalDth elen h) :
    ∃ mode, exec i s = .next { s with out := hvalOut Config.params mode elen h } := by
  obtain rfl | rfl | rfl := hi
  · exact ⟨.wrsp, rfl⟩
  · exact ⟨.rrsp, rfl⟩
  · exact ⟨.dth, rfl⟩

/-- The operation check comes after those of the magic and of the checksum alone (R114). -/
theorem hvalErr_badOp {p : Params} {mode : HvalMode} {h : Hdr} (elen : Half) (magic : hdrByte h 0 = p.magic)
    (check : hdrByte h 7 = cksum h) (op : hdrByte h 1 ≠ hvalOp p mode) : hvalErr p mode elen h = .badOp := by
  simp [hvalErr, magic, check, op]

/-- `hv_err` in numbers, for what the zero length and length checks of the mode ask (R108). -/
theorem hvalErr_eq (p : Params) {mode : HvalMode} {elen : Half} {h : Hdr} {zeroOk lenOk : Prop} [Decidable zeroOk]
    [Decidable lenOk] (zero : hvalZeroOk mode (hdrLen h) = true ↔ zeroOk)
    (fits : hvalLenOk mode elen (hdrLen h) = true ↔ lenOk) :
    hvalErr p mode elen h =
      if p.checkMagic = true ∧ (hdrByte h 0).toNat ≠ p.magic.toNat then .badMagic
      else if p.checkCksum = true ∧ (hdrByte h 7).toNat ≠ 0xFF - coveredSum h % 256 then .badCksum
      else if (hdrByte h 1).toNat ≠ (hvalOp p mode).toNat then .badOp
      else if ¬ zeroOk then .zeroLen
      else if ¬ lenOk then .badLen
      else .none := by
  simp only [hvalErr, ← zero, ← fits, ← cksum_toNat, ne_eq, BitVec.toNat_inj, Bool.and_eq_true, bne_iff_ne,
    Bool.not_eq_true', Bool.not_eq_true]

/-- HVAL's outputs with the header's bytes as numbers (R108). -/
theorem hvalOut_eq_ofNat (p : Params) (mode : HvalMode) (elen : Half) (h : Hdr) : hvalOut p mode elen h =
    { Out.quiet with
      hvOk := some (decide (hvalErr p mode elen h = .none))
      hvErr := some (hvalErr p mode elen h)
      hvOp := some (BitVec.ofNat 8 (hdrByte h 1).toNat)
      hvLen := some (BitVec.ofNat 16 ((hdrByte h 5).toNat + 256 * (hdrByte h 6).toNat))
      hvRsv := some (BitVec.ofNat 24
        ((hdrByte h 2).toNat + 256 * (hdrByte h 3).toNat + 65536 * (hdrByte h 4).toNat))
      hvMore := some (decide (BitVec.ofNat 8 (hdrByte h p.moreByte).toNat &&& p.moreMask ≠ 0)) } := by
  have more : hvalMore p h = decide (hdrByte h p.moreByte &&& p.moreMask ≠ 0) := by
    rw [hvalMore, Bool.eq_iff_iff, bne_iff_ne, decide_eq_true_iff]
  rw [hvalOut, more, hdrLen_eq_ofNat, hdrRsv_eq_ofNat, BitVec.ofNat_toNat, BitVec.setWidth_eq, BitVec.ofNat_toNat,
    BitVec.setWidth_eq]
  rfl

/-- The operation codes are pairwise distinct (R6), so no mode expects that of a host-built header. -/
theorem hencOp_ne_hvalOp (kind : HencKind) (mode : HvalMode) :
    hencOp Config.params kind ≠ hvalOp Config.params mode := by
  have distinct := params_opCodes_nodup
  simp only [List.nodup_cons, List.mem_cons, not_or] at distinct
  obtain ⟨⟨-, -, wreqWrsp, wreqRrsp, wreqDth, -⟩, ⟨-, rreqWrsp, rreqRrsp, rreqDth, -⟩,
    ⟨dfhWrsp, dfhRrsp, dfhDth, -⟩, -⟩ := distinct
  cases kind with
  | wreq => cases mode <;> assumption
  | rreq => cases mode <;> assumption
  | dfh => cases mode <;> assumption

/-- Settles O20: magic and checksum are right by construction, so the operation is the first check that fails. -/
theorem hvalOfAHencHeaderIsBadOp : Obligations.HvalOfAHencHeaderIsBadOp := by
  intro len elen h i s t hi hexec hout
  obtain ⟨kind, built⟩ := exec_henc s hi
  rw [built] at hexec
  cases hexec
  obtain rfl := eq_hencHdr_of_hencOut hout
  refine ⟨hdrByte_hencHdr_magic .., hdrRsv_hencHdr .., hdrByte_hencHdr_cksum .., hdrLen_hencHdr .., ?_⟩
  intro j s' t' hj hexec'
  obtain ⟨mode, checked⟩ := exec_hval s' hj
  rw [checked] at hexec'
  cases hexec'
  have unexpected : hdrByte (hencHdr Config.params (hencOp Config.params kind) len) 1 ≠
      hvalOp Config.params mode := by
    rw [hdrByte_hencHdr_op]
    exact hencOp_ne_hvalOp kind mode
  have badOp := hvalErr_badOp elen (hdrByte_hencHdr_magic ..) (hdrByte_hencHdr_cksum ..) unexpected
  simp [hvalOut, badOp]

/-- Settles O21: HVAL's outputs with the header's bytes as numbers, for each mode. -/
theorem hvalChecksInOrder : Obligations.HvalChecksInOrder := by
  intro elen h s byte
  have bytes : byte = fun k => (hdrByte h k).toNat := funext fun k => (hdrByte_toNat h k).symm
  clear_value byte
  subst bytes
  intro len sum err answered
  have outputs : ∀ (mode : HvalMode) {zeroOk lenOk : Prop} [Decidable zeroOk] [Decidable lenOk],
      (hvalZeroOk mode (hdrLen h) = true ↔ zeroOk) → (hvalLenOk mode elen (hdrLen h) = true ↔ lenOk) →
      ({ s with out := hvalOut Config.params mode elen h } : State) =
        answered (err (hvalOp Config.params mode) zeroOk lenOk) := by
    intro mode zeroOk lenOk _ _ zero fits
    rw [hvalOut_eq_ofNat, hvalErr_eq _ zero fits, coveredSum_eq]
  have length : (hdrLen h).toNat = len := declaredLengthIsLittleEndian h
  have whole : (hdrLen h == elen) = true ↔ len = elen.toNat := by rw [beq_iff_eq, ← length, BitVec.toNat_inj]
  have nonzero : (hdrLen h != 0) = true ↔ len ≠ 0 := by rw [bne_iff_ne, ← length, Ne, ← BitVec.toNat_inj]; rfl
  have bounded : decide ((hdrLen h).toNat ≤ elen.toNat) = true ↔ len ≤ elen.toNat := by
    rw [decide_eq_true_iff, length]
  exact ⟨congrArg _ (outputs .wrsp (iff_of_true rfl trivial) whole), congrArg _ (outputs .rrsp nonzero bounded),
    congrArg _ (outputs .dth (iff_of_true rfl trivial) whole)⟩

end Sys2Proof.Machine
end

section
/-! The classifier: containment as a run of bytes in the line, searches of a table and of a line from their results,
the tokens of a joined string, and what each rule of the procedure answers. -/

namespace Sys2Proof.Machine

/-! ### Containment and the table search -/

theorem startsWith_iff_take (line m : List Byte) :
    startsWith line m = true ↔ m.length ≤ line.length ∧ line.take m.length = m := by
  rw [startsWith_iff_prefix, List.prefix_iff_eq_take, eq_comm]
  exact ⟨fun h => ⟨by simpa using congrArg List.length h, h⟩, And.right⟩

theorem contains_iff_infix (line m : List Byte) : contains line m = true ↔ m <:+: line := by
  induction line with
  | nil => rw [contains_nil, startsWith_iff_prefix, List.prefix_nil, List.infix_nil]
  | cons c cs ih => rw [contains_cons, Bool.or_eq_true, startsWith_iff_prefix, ih, List.infix_cons_iff]

theorem contains_iff_startsWith_drop (line m : List Byte) :
    contains line m = true ↔ ∃ i ≤ line.length, startsWith (line.drop i) m = true := by
  simp only [contains_iff_infix, startsWith_iff_prefix]
  constructor
  · rintro ⟨before, rest, rfl⟩
    exact ⟨before.length, by simp, by simp⟩
  · rintro ⟨i, -, h⟩
    exact h.isInfix.trans (List.drop_suffix i line).isInfix

/-- Settles O25: an index of an occurrence is one from which on the line starts with the marker. -/
theorem containsIsSubstring : Obligations.ContainsIsSubstring := by
  intro line m
  refine ⟨?_, startsWith_iff_take line m⟩
  rw [contains_iff_startsWith_drop]
  refine exists_congr fun i => ?_
  rw [startsWith_iff_take, List.length_drop, ← and_assoc]
  exact and_congr_left fun _ => by omega

/-- The search of a table finds the entry whose marker is the first that the line contains. -/
theorem firstMatch_eq_some {line m : List Byte} {t : Tag} {table : List (List Byte × Tag)} {j : Nat} (k : Nat)
    (entry : table[j]? = some (m, t)) (found : contains line m = true)
    (first : ∀ i m' t', i < j → table[i]? = some (m', t') → contains line m' = false) :
    firstMatch line k table = some (t, k + j) := by
  cases h : firstMatch line k table with
  | none =>
    have absent := (firstMatch_eq_none_iff line k table).mp h (m, t) (List.mem_of_getElem? entry)
    exact absurd found (by simp [absent])
  | some e =>
    obtain ⟨t', n⟩ := e
    obtain ⟨j', m', rfl, entry', found', first'⟩ := firstMatch_some line k n t' table h
    obtain lt | rfl | gt := Nat.lt_trichotomy j j'
    · exact absurd found (by simp [first' j m t lt entry])
    · cases entry.symm.trans entry'
      rfl
    · exact absurd found' (by simp [first j' m' t' gt entry'])

theorem classify_of_firstMatch {p : Params} {line : List Byte} {t : Tag} {k : Nat}
    (h : firstMatch line 0 (markers p) = some (t, k)) :
    classify p line = { tag := t, midx := BitVec.ofNat 8 k, cid := none } := by
  rw [classify, h]

/-- Settles O28: the procedure answers with the entry the search finds. -/
theorem firstMarkerWins : Obligations.FirstMarkerWins := by
  intro p line m k t entry found first
  have search := firstMatch_eq_some 0 entry found first
  rw [Nat.zero_add] at search
  exact classify_of_firstMatch search

/-- Settles O30: `OK` is entry 0, and no entry comes before it. -/
theorem lineWithOkIsOk : Obligations.LineWithOkIsOk := by
  intro p before after
  have found : contains (before ++ [0x4F, 0x4B] ++ after) [0x4F, 0x4B] = true :=
    (contains_iff_infix ..).mpr ⟨before, after, rfl⟩
  exact firstMarkerWins p _ [0x4F, 0x4B] 0 .ok rfl found fun j _ _ hj => absurd hj (Nat.not_lt_zero j)

/-! ### The marker table -/

/-- The entries after the eight fixed ones (R131). -/
theorem markers_getElem?_eight_add (p : Params) (k : Nat) : (markers p)[8 + k]? =
    (p.bootMarkers.map (fun m => (m, Tag.boot)) ++
      (ascii "DISCONNECT", Tag.disconnect) :: p.wakeMarkers.map (fun m => (m, Tag.wake)))[k]? := by
  rw [Nat.add_comm, markers, List.append_assoc, List.append_assoc]
  rfl

theorem markers_length (p : Params) : (markers p).length = 9 + p.bootMarkers.length + p.wakeMarkers.length := by
  simp only [markers, List.length_append, List.length_map, List.length_cons, List.length_nil]
  omega

/-- Settles O27: an index from 8 on is one into the boot markers, DISCONNECT and the wake markers. -/
theorem markerTableOrder : Obligations.MarkerTableOrder := by
  intro p
  refine ⟨rfl, fun k hk => ?_, ?_, fun k => ?_, ?_⟩
  · rw [markers_getElem?_eight_add, List.getElem?_append_left (by simpa using hk), List.getElem?_map]
  · rw [markers_getElem?_eight_add, List.getElem?_append_right (by simp)]
    simp
  · have index : 9 + p.bootMarkers.length + k = 8 + (p.bootMarkers.length + (k + 1)) := by omega
    rw [index, markers_getElem?_eight_add, List.getElem?_append_right (by simp)]
    simp
  · rw [markers_length]
    exact params_marker_count

/-! ### The tokens -/

/-- A space ends the token read so far, and what follows it is read afresh. -/
theorem tokensFrom_append_space (token a b : List Byte) :
    tokensFrom token (a ++ byteSP :: b) = tokensFrom token a ++ tokens b := by
  induction a generalizing token with
  | nil =>
    rw [List.nil_append, tokensFrom_space, tokensFrom_nil, tokens]
    split <;> rfl
  | cons c a ih =>
    rw [List.cons_append]
    by_cases hc : c = byteSP
    · subst hc
      rw [tokensFrom_space, tokensFrom_space, ih]
      split <;> rfl
    · rw [tokensFrom_other _ _ _ hc, tokensFrom_other _ _ _ hc, ih]

/-- Bytes other than the space all belong to the token read so far. -/
theorem tokensFrom_of_no_space {token w : List Byte} (nonempty : token ++ w ≠ []) (noSpace : byteSP ∉ w) :
    tokensFrom token w = [token ++ w] := by
  induction w generalizing token with
  | nil =>
    rw [List.append_nil] at nonempty
    rw [tokensFrom_nil, List.append_nil, if_neg (by simpa using nonempty)]
  | cons c w ih =>
    rw [List.mem_cons, not_or] at noSpace
    obtain ⟨hc, hw⟩ := noSpace
    rw [tokensFrom_other _ _ _ (Ne.symm hc), ih (by simp) hw, List.append_assoc, List.singleton_append]

/-- Settles O26: a string without a space is one token, and a space separates the tokens before and after it. -/
theorem tokensAreMaximalRuns : Obligations.TokensAreMaximalRuns :=
  ⟨rfl, fun _ nonempty noSpace => tokensFrom_of_no_space nonempty noSpace, tokensFrom_append_space []⟩

/-! ### The echo rule and the CONNECT rule -/

/-- What follows the first occurrence of a marker: the converse of `afterFirst_spec`. -/
theorem afterFirst_eq_some {line before m rest : List Byte} (occurs : line = before ++ m ++ rest)
    (first : ∀ before' rest', line = before' ++ m ++ rest' → before.length ≤ before'.length) :
    afterFirst m line = some rest := by
  cases h : afterFirst m line with
  | none =>
    have found : contains line m = true := (contains_iff_infix line m).mpr ⟨before, rest, occurs.symm⟩
    rw [afterFirst_eq_none_iff, found] at h
    cases h
  | some rest' =>
    obtain ⟨before', occurs', first'⟩ := afterFirst_spec m line rest' h
    have sameStart : before.length = before'.length :=
      Nat.le_antisymm (first before' rest' occurs') (first' before rest occurs)
    have sameEnd : (before ++ m).length = (before' ++ m).length := by
      rw [List.length_append, List.length_append, sameStart]
    rw [(List.append_inj (occurs.symm.trans occurs') sameEnd).2]

theorem connectRule_of_four_tokens {line rest t0 t1 t2 t3 : List Byte} {c : Byte} {more : List (List Byte)}
    (after : afterFirst connectPattern line = some rest)
    (four : tokens rest = t0 :: (c :: t1) :: t2 :: t3 :: more) :
    connectRule line = { tag := .tcpServerConnect, midx := 0xF1, cid := some c } := by
  simp only [connectRule, after, four]

/-- The rule falls through to no match where fewer than four tokens follow the first occurrence of its pattern, and
where the pattern does not occur (R135, R138). -/
theorem connectRule_eq_unmatched {line : List Byte}
    (few : ∀ rest, afterFirst connectPattern line = some rest → (tokens rest).length < 4) :
    connectRule line = .unmatched := by
  obtain unmatched | ⟨rest, t0, c, t1, t2, t3, more, after, four, -⟩ := connectRule_cases line
  · exact unmatched
  · have short := few rest after
    simp only [four, List.length_cons] at short
    omega

theorem classify_of_echo {p : Params} {line : List Byte} (noMarker : firstMatch line 0 (markers p) = none)
    (echo : startsWith line echoPrefix = true) :
    classify p line = { tag := .unmatched, midx := 0xF0, cid := none } := by
  simp only [classify, noMarker, echo, if_true]

theorem classify_eq_connectRule {p : Params} {line : List Byte} (noMarker : firstMatch line 0 (markers p) = none)
    (noEcho : startsWith line echoPrefix = false) : classify p line = connectRule line := by
  simp only [classify, noMarker, noEcho, Bool.false_eq_true, if_false]

/-- Settles O29: with no marker in the line, the echo rule or the CONNECT rule answers. -/
theorem echoAndConnectRules : Obligations.EchoAndConnectRules := by
  intro p line absent echo connect first
  have noMarker : firstMatch line 0 (markers p) = none := (firstMatch_eq_none_iff ..).mpr absent
  have afterFirst_of_first {before rest : List Byte} (h : first before rest) :
      afterFirst connectPattern line = some rest := afterFirst_eq_some h.1 h.2
  refine ⟨classify_of_echo noMarker, fun noEcho => ?_⟩
  rw [classify_eq_connectRule noMarker noEcho]
  refine ⟨fun before rest t0 c t1 t2 t3 more h four => ?_, fun before rest h few => ?_, fun noConnect => ?_⟩
  · exact connectRule_of_four_tokens (afterFirst_of_first h) four
  · refine connectRule_eq_unmatched fun rest' after => ?_
    cases (afterFirst_of_first h).symm.trans after
    exact few
  · have noPattern : afterFirst connectPattern line = none := (afterFirst_eq_none_iff ..).mpr noConnect
    exact connectRule_eq_unmatched fun rest after => by cases noPattern.symm.trans after

/-! ### The tags -/

theorem markers_tag_code {p : Params} {e : List Byte × Tag} (h : e ∈ markers p) :
    1 ≤ e.2.code.toNat ∧ e.2.code.toNat ≤ 12 := by
  obtain h | h | h | h | h | h | h | h | h | h := markers_tags p e h
  all_goals rw [h]; decide

theorem connectRule_tag (line : List Byte) :
    (connectRule line).tag = .unmatched ∨ (connectRule line).tag = .tcpServerConnect := by
  obtain h | ⟨_, _, c, _, _, _, _, -, -, h⟩ := connectRule_cases line
  · exact .inl (by rw [h]; rfl)
  · exact .inr (by rw [h])

/-- Settles O31, by the rule that answers. -/
theorem classifierTagsAreOneToTwelve : Obligations.ClassifierTagsAreOneToTwelve := by
  intro p line
  obtain ⟨t, k, search, h⟩ | ⟨-, -, h⟩ | ⟨-, -, h⟩ := classify_cases p line
  · obtain ⟨j, m, -, entry, -, -⟩ := firstMatch_some line 0 k t _ search
    rw [h]
    exact markers_tag_code (List.mem_of_getElem? entry)
  · rw [h]; decide
  · rw [h]
    obtain tag | tag := connectRule_tag line
    · rw [tag]; decide
    · rw [tag]; decide

end Sys2Proof.Machine
end

section
/-! FEED of one byte in each state and sub-phase: the whole next state, and the arrays at every index. -/

namespace Sys2Proof.Machine

/-! ### From FEED to its step -/

/-- The step of a FEED, from what FEED does to the block. -/
theorem exec_feed_eq {v : Byte} {s : State} {b : Block} {e : Emitted} (h : feed Config.params v s.block = (b, e)) :
    exec (.feed v) s = .next { s with block := b, out := feedOut e } := by
  rw [exec_feed, h]

/-! ### START and ESC_START -/

/-- Settles O34: the three cases of `feedStart`. -/
theorem feedInStart : Obligations.FeedInStart := by
  intro v s hf
  refine exec_feed_eq ?_
  rw [feed_start _ v _ hf]
  obtain ⟨ignored, h⟩ | ⟨rfl, h⟩ | ⟨hcr, hlf, hesc, h⟩ := feedStart_cases v s.block
  · rw [h, if_pos ignored]
    rfl
  · rw [h, if_neg (by decide), if_pos rfl]
    rfl
  · rw [h, if_neg (not_or.mpr ⟨hcr, hlf⟩), if_neg hesc]
    rfl

/-- Settles O39: the five cases of `feedEscStart`. -/
theorem feedInEscStart : Obligations.FeedInEscStart := by
  intro v s hf
  refine exec_feed_eq ?_
  rw [feed_escStart _ v _ hf]
  obtain ⟨rfl | rfl, h⟩ | ⟨rfl, h⟩ | ⟨rfl, h⟩ | ⟨rfl, h⟩ | ⟨other, h⟩ := feedEscStart_cases v s.block
  case inr.inr.inr.inr =>
    simp only [List.mem_cons, List.not_mem_nil, or_false, not_or] at other
    obtain ⟨hZ, hH, hy, hO, hF⟩ := other
    rw [h, if_neg (not_or.mpr ⟨hZ, hH⟩), if_neg hy, if_neg hO, if_neg hF]
    rfl
  all_goals rw [h]; rfl

/-! ### RESPONSE -/

/-- A further byte of a line goes to `acc_len` and leaves the bytes below alone (R171). -/
theorem Block.accByte_appendLine (b : Block) (v : Byte) (i : Nat) :
    (b.appendLine v).accByte i = if i = b.accLen then some v else b.accByte i := by
  simp only [Block.accByte, Block.appendLine_accLen, Block.appendLine_acc, Table.read_write]
  by_cases h : i = b.accLen
  · subst h; simp
  · have below : i < b.accLen + 1 ↔ i < b.accLen := by omega
    simp [h, below]

/-- A line byte with room for it is appended (R171). -/
theorem feed_lineByte (p : Params) {v : Byte} {b : Block} (hf : b.fsm = .response) (hskip : b.skip = false)
    (hlf : v ≠ byteLF) (stays : ¬ (v = byteESC ∧ p.escInResponse = .dispatch)) (room : b.accLen ≠ p.lineMax) :
    feed p v b = (b.appendLine v, .nothing) := by
  rw [feed_response p v b hf, feedResponse, if_neg hlf, hskip, if_neg Bool.false_ne_true, if_neg stays, if_neg room]

/-- An LF with `skip` clear finishes the line (R170). -/
theorem feed_lineEnd (p : Params) {b : Block} (hf : b.fsm = .response) (hskip : b.skip = false) :
    feed p byteLF b = finishLine p b := by
  rw [feed_response p _ b hf, feedResponse, if_pos rfl, hskip, if_neg Bool.false_ne_true]

/-- Settles O35: the cases of `feedResponse` but that of an LF that finishes a line. -/
theorem feedInResponse : Obligations.FeedInResponse := by
  intro v s hf
  refine ⟨fun hlf => exec_feed_eq ?_, fun hlf hskip => exec_feed_eq ?_⟩ <;> rw [feed_response _ v _ hf]
  · obtain ⟨hlf', -⟩ | ⟨hlf', -⟩ | ⟨-, hskip, h⟩ | ⟨hesc, hskip, hdisp, h⟩ | ⟨-, hskip, stays, full, h⟩ |
      ⟨-, hskip, stays, room, h⟩ := feedResponse_cases Config.params v s.block
    · exact absurd hlf' hlf
    · exact absurd hlf' hlf
    · rw [h, if_pos hskip, if_neg fun ⟨kept, _⟩ => nomatch hskip.symm.trans kept]
      rfl
    · have escapes : v = byteESC ∧ Config.params.escInResponse = .dispatch := ⟨hesc, hdisp⟩
      rw [h, if_neg (by simp [hskip]), if_pos escapes, if_neg fun ⟨_, stays, _⟩ => stays escapes]
      rfl
    · rw [h, if_neg (by simp [hskip]), if_neg stays, if_pos full, if_pos ⟨hskip, stays, full⟩]
      rfl
    · rw [h, if_neg (by simp [hskip]), if_neg stays, if_neg room, if_neg fun ⟨_, _, full⟩ => room full]
      rfl
  · rw [feedResponse, if_pos hlf, if_pos hskip]
    rfl

/-- Settles O36: the byte is appended, and `Block.accByte_appendLine` gives the line at every index. -/
theorem lineByteIsAppended : Obligations.LineByteIsAppended := by
  intro v s hf hskip hlf stays room
  have read := s.block.accByte_appendLine v
  exact ⟨_, exec_feed_eq (feed_lineByte _ hf hskip hlf stays (Nat.ne_of_lt room)), rfl,
    (read _).trans (if_pos rfl), fun i hi => (read i).trans (if_neg hi), rfl⟩

/-! ### The end of a line -/

/-- With room in the pool the line goes to the next slot (R165). -/
theorem Block.storeLine_of_room {b : Block} (room : b.poolCount < 32) : b.storeLine = { b with
    pool := Table.write b.pool b.poolCount (Table.ofList 0 b.line)
    poolLen := Table.write b.poolLen b.poolCount b.accLen
    poolCount := b.poolCount + 1 } :=
  if_pos room

/-- With the pool full the line is not stored (R26, R165). -/
theorem Block.storeLine_of_full {b : Block} (full : 32 ≤ b.poolCount) : b.storeLine = { b with poolOvf := true } :=
  if_neg (Nat.not_lt.mpr full)

/-- The slot that a line is stored in holds the line, byte for byte (R165). -/
theorem Block.poolByte_storeLine_same {b : Block} (room : b.poolCount < 32) (whole : b.line.length = b.accLen)
    (i : Nat) : b.storeLine.poolByte b.poolCount i = b.line[i]? := by
  have copied : Table.read (Table.ofList 0 b.line) i = b.line[i]? := by
    rw [← Table.read_ofList 0 b.line i, Nat.zero_add]
  rw [Block.storeLine_of_room room]
  simp only [Block.poolByte, Nat.lt_succ_self, if_true, Table.read_write_same, Option.bind_some, copied]
  split
  · rfl
  · next beyond => exact (List.getElem?_eq_none (by omega)).symm

/-- Storing a line changes no byte of another slot (R165). -/
theorem Block.poolByte_storeLine_other (b : Block) {slot : Nat} (i : Nat) (other : slot ≠ b.poolCount) :
    b.storeLine.poolByte slot i = b.poolByte slot i := by
  by_cases stored : slot < b.poolCount
  · exact Block.poolByte_storeLine_of_lt i stored
  · have unstored : ¬ slot < b.storeLine.poolCount := by
      rw [Block.storeLine_poolCount]
      split <;> omega
    rw [Block.poolByte, Block.poolByte, if_neg unstored, if_neg stored]

/-- In a canonical block the line's bytes are those of the accumulator. -/
theorem Block.Stored.getElem?_line {b : Block} (h : b.Stored) {i : Nat} (hi : i < b.accLen) :
    b.line[i]? = b.accByte i := by
  rw [Block.accByte, if_pos hi]
  exact Table.getElem?_upTo (fun j hj => (Table.filled_isSome h.acc j).mpr hj) hi

/-- The step of an LF that finishes a line (R165, R170). -/
theorem exec_lineEnd {s : State} (hf : s.block.fsm = .response) (hskip : s.block.skip = false) :
    let v := classify Config.params s.block.line
    exec (.feed byteLF) s = .next { s with
      block := { s.block.storeLine.dropLine with
        connCid := if v.tag = .tcpServerConnect then v.cid.getD s.block.connCid else s.block.connCid
        fsm := if v.tag = .unmatched then .response else .start }
      out := feedOut { tag := v.tag, final := false, midx := v.midx } } := by
  have fed := exec_feed_eq ((feed_lineEnd Config.params hf hskip).trans (finishLine_eq _ _))
  rwa [hf] at fed

/-- Settles O37: `storeLine` writes the next slot and no other, and the classification is `finish_line()`'s. -/
theorem lineEndStoresAndClassifies : Obligations.LineEndStoresAndClassifies := by
  intro s h hf hskip room v n
  have whole : s.block.line.length = s.block.accLen := Table.length_upTo h.stored.acc
  have copied := Block.poolByte_storeLine_same room whole
  have lengths := s.block.poolLength_storeLine
  refine ⟨_, exec_lineEnd hf hskip, rfl, ?count, ?length, ?bytes, ?beyond, ?otherLengths, ?otherBytes, ?noLine, ?frame⟩
  case count => exact s.block.storeLine_poolCount.trans (if_pos room)
  case length => exact (lengths n).trans (if_pos ⟨room, rfl⟩)
  case bytes =>
    intro i hi
    have read := h.stored.getElem?_line hi
    rw [List.getElem?_eq_getElem (by omega)] at read
    exact ⟨_, read.symm, (copied i).trans (List.getElem?_eq_getElem (by omega))⟩
  case beyond => exact fun i hi => (copied i).trans (List.getElem?_eq_none (by omega))
  case otherLengths => exact fun slot other => (lengths slot).trans (if_neg fun c => other c.2)
  case otherBytes => exact fun slot i other => s.block.poolByte_storeLine_other i other
  case noLine => exact fun i => if_neg (Nat.not_lt_zero i)
  case frame =>
    rw [Block.storeLine_of_room room]
    rfl

/-- Settles O38: with the pool full `storeLine` sets `pool_ovf` alone. -/
theorem lineEndWithFullPool : Obligations.LineEndWithFullPool := by
  intro s hf hskip full v
  have fed := exec_lineEnd hf hskip
  rw [Block.storeLine_of_full full] at fed
  exact fed

/-! ### A bulk frame -/

/-- Settles O40: the CID byte of either bulk state. -/
theorem feedOfTheCid : Obligations.FeedOfTheCid := by
  rintro v s next (⟨hf, rfl⟩ | ⟨hf, rfl⟩)
  · exact exec_feed_eq (feed_bulk_cidp _ v _ hf)
  · exact exec_feed_eq (feed_udp_cidp _ v _ hf)

/-- Settles O41: the four cases of `feedLength`, which one a byte takes being told by its value and the counters. -/
theorem feedOfTheLength : Obligations.FeedOfTheLength := by
  intro v s tag payp hphase n quietly
  have fed : feed Config.params v s.block = feedLength tag payp v s.block := by
    obtain ⟨hf, rfl, rfl⟩ | ⟨hf, rfl, rfl⟩ := hphase
    · exact feed_bulk_lenp _ v _ hf
    · exact feed_udp_lenp _ v _ hf
  have isDig (low : 0x30 ≤ v.toNat) (high : v.toNat ≤ 0x39) : isDigit v = true := (isDigit_eq_true v).mpr ⟨low, high⟩
  refine ⟨fun notDigit => ?_, fun low high early => ?_, fun low high last empty => ?_, fun low high last due => ?_⟩ <;>
    refine exec_feed_eq (fed.trans ?_)
  · have notDig : ¬ isDigit v = true := by rw [isDigit_eq_true]; omega
    rw [feedLength, if_neg notDig]
    rfl
  · rw [feedLength, if_pos (isDig low high), if_pos early]
    rfl
  · have zero : s.block.blen * 10 + digit v = 0 := empty
    rw [feedLength, if_pos (isDig low high), if_neg (by omega), if_pos zero]
    rfl
  · have nonzero : s.block.blen * 10 + digit v ≠ 0 := Nat.one_le_iff_ne_zero.mp due
    rw [feedLength, if_pos (isDig low high), if_neg (by omega), if_neg nonzero]
    rfl

/-- A payload byte, the last one or not: the two cases of R191 and R196 in one. -/
theorem feedPayload_eq (v : Byte) {b : Block} (due : 1 ≤ b.blen) (tag : Tag) : feedPayload tag v b =
    ({ b.storeEsc v with
        blen := b.blen - 1
        escDone := if b.blen = 1 then true else b.escDone
        fsm := if b.blen = 1 then .start else b.fsm
        dcount := if b.blen = 1 then 0 else b.dcount }, .of tag (decide (b.blen = 1))) := by
  obtain ⟨last, h⟩ | ⟨more, h⟩ := feedPayload_cases v b tag
  · have one : b.blen = 1 := by omega
    simp [h, one, Block.leaveBulk]
  · have notOne : b.blen ≠ 1 := by omega
    simp [h, notOne, Block.storeEsc]

/-- Settles O42: the byte is stored by `store_esc`, whether it is the last one or not. -/
theorem feedOfThePayload : Obligations.FeedOfThePayload := by
  intro v s tag due hphase
  have fed : feed Config.params v s.block = feedPayload tag v s.block := by
    obtain ⟨hf, rfl⟩ | ⟨hf, rfl⟩ := hphase
    · exact feed_bulk_payp _ v _ hf
    · exact feed_udp_payp _ v _ hf
  have read := s.block.escByte_storeEsc v
  exact ⟨_, exec_feed_eq (fed.trans (feedPayload_eq v due tag)), rfl, (read _).trans (if_pos rfl),
    fun i hi => (read i).trans (if_neg hi), rfl⟩

/-- A header byte with room for it, a delimiter or not: the three cases of R193 to R195 in one. -/
theorem feedHeader_eq {p : Params} (v : Byte) {b : Block} (hf : b.fsm = .udpBulkData .hdrp)
    (room : b.udpHdrLen ≠ p.udpHdrMax) : feedHeader p v b =
    ({ b.storeHdr v with
        spSeen := if v = byteSP then true else b.spSeen
        tabSeen := if v = byteHT ∧ b.spSeen = true then true else b.tabSeen
        fsm := if v = byteHT ∧ b.spSeen = true then .udpBulkData .lenp else .udpBulkData .hdrp }, .nothing) := by
  obtain ⟨full, -⟩ | ⟨-, rfl, h⟩ | ⟨-, rfl, sp, h⟩ | ⟨-, notSpace, notEnd, h⟩ := feedHeader_cases p v b
  · exact absurd full room
  · rw [h]
    simp [hf, Block.storeHdr]
  · rw [h]
    simp [sp, Block.storeHdr]
  · rw [h, if_neg notSpace, if_neg notEnd, if_neg notEnd, ← hf]
    rfl

/-- Settles O43: with room the byte is stored by `store_esc`, whether it is a delimiter or not. -/
theorem feedOfTheUdpHeader : Obligations.FeedOfTheUdpHeader := by
  intro v s hf
  have fed := feed_udp_hdrp Config.params v s.block hf
  have read := s.block.escByte_storeEsc v
  refine ⟨fun full => exec_feed_eq (fed.trans (if_pos full)), fun room => ?_⟩
  exact ⟨_, exec_feed_eq (fed.trans (feedHeader_eq v hf (Nat.ne_of_lt room))), rfl, (read _).trans (if_pos rfl),
    fun i hi => (read i).trans (if_neg hi), rfl⟩

end Sys2Proof.Machine
end

section
/-! Runs of FEED over a payload and over a text line. -/

namespace Sys2Proof.Machine

/-! ### A payload, whatever its bytes -/

/-- The payload phase is that of one of the two bulk states. -/
theorem BulkState.of_bphase {b : Block} (h : b.bphase = .payp) : ∃ lenp tag, BulkState lenp b.fsm tag := by
  obtain hf | hf := b.bphase_eq_payp_iff.mp h <;> rw [hf]
  exacts [⟨_, _, .bulk⟩, ⟨_, _, .udp⟩]

/-- Fewer bytes than are due are stored, none of them final. -/
theorem feedAll_payloadPart {lenp payp : Fsm} {tag : Tag} (hs : BulkState lenp payp tag) (p : Params) (w : List Byte)
    {b : Block} (hf : b.fsm = payp) (more : w.length < b.blen) :
    feedAll p w b = ({ b.storeBytes w with blen := b.blen - w.length },
      List.replicate w.length (Emitted.of tag false)) := by
  induction w generalizing b with
  | nil => rfl
  | cons v w ih =>
    rw [List.length_cons] at more ⊢
    have rest := ih (b := { b.storeEsc v with blen := b.blen - 1 }) hf (by simp only; omega)
    have left : b.blen - (w.length + 1) = b.blen - 1 - w.length := by omega
    rw [Block.storeBytes_cons, left]
    exact feedAll_cons_eq (feed_payloadByte hs p v hf (by omega)) rest

/-- `stat` shows of stored bytes their number alone (R38). -/
theorem Block.stat_storeBytes (b : Block) {w w' : List Byte} (same : w.length = w'.length) (n : Nat) :
    Block.stat { b.storeBytes w with blen := n } = Block.stat { b.storeBytes w' with blen := n } := by
  simp only [Block.stat, Block.st, Block.bphase, Block.storeBytes, same]

/-- `stat` shows of a delivered payload its length alone (R38). -/
theorem Block.stat_deliver (b : Block) {w w' : List Byte} (same : w.length = w'.length) :
    (b.deliver w).stat = (b.deliver w').stat := by
  simp only [Block.stat, Block.st, Block.bphase, Block.deliver, Block.leaveBulk, Block.storeBytes, same]

/-- Settles O44: short of the bytes due the payload is stored, with them it is delivered, and neither block's `stat`
depends on more than its length. -/
theorem payloadContentDoesNotMatter : Obligations.PayloadContentDoesNotMatter := by
  intro b w w' hphase same fits
  obtain ⟨lenp, tag, hs⟩ := BulkState.of_bphase hphase
  obtain more | all := Nat.lt_or_eq_of_le fits
  · rw [feedAll_payloadPart hs _ w rfl more, feedAll_payloadPart hs _ w' rfl (same ▸ more), same]
    exact ⟨b.stat_storeBytes same _, rfl⟩
  · cases w with
    | nil => rw [List.eq_nil_of_length_eq_zero same.symm]; exact ⟨rfl, rfl⟩
    | cons v u =>
      obtain ⟨v', u', rfl⟩ := List.exists_cons_of_length_eq_add_one same.symm
      have same' : u.length = u'.length := Nat.succ.inj same
      rw [feedAll_payload hs _ v u rfl all.symm, feedAll_payload hs _ v' u' rfl (all.symm.trans same), same']
      exact ⟨b.stat_deliver same, rfl⟩

/-! ### A text line -/

/-- The bytes of `w` appended to the line (R171). -/
def Block.appendBytes (b : Block) (w : List Byte) : Block :=
  { b with acc := Table.writeAll b.acc b.accLen w, accLen := b.accLen + w.length }

theorem Block.appendBytes_cons (b : Block) (v : Byte) (w : List Byte) :
    b.appendBytes (v :: w) = (b.appendLine v).appendBytes w := by
  simp [Block.appendBytes, Block.appendLine, Table.writeAll, Nat.add_assoc, Nat.add_comm]

theorem Block.line_appendBytes (b : Block) (w : List Byte) : (b.appendBytes w).line = b.line ++ w :=
  Table.upTo_writeAll b.acc b.accLen w

/-- Line bytes within the bound are appended and emit nothing (R171, R175). -/
theorem feedAll_lineBytes (p : Params) (w : List Byte) {b : Block} (hf : b.fsm = .response) (hskip : b.skip = false)
    (text : ∀ x ∈ w, x ≠ byteLF ∧ (x = byteESC → p.escInResponse = .literal)) (room : b.accLen + w.length ≤ p.lineMax) :
    feedAll p w b = (b.appendBytes w, List.replicate w.length Emitted.nothing) := by
  induction w generalizing b with
  | nil => rfl
  | cons v w ih =>
    rw [List.length_cons] at room
    obtain ⟨⟨notLF, literal⟩, text'⟩ := List.forall_mem_cons.mp text
    have stays : ¬ (v = byteESC ∧ p.escInResponse = .dispatch) := by
      rintro ⟨esc, dispatch⟩
      cases (literal esc).symm.trans dispatch
    have rest := ih (b := b.appendLine v) hf hskip text' (by rw [Block.appendLine_accLen]; omega)
    rw [Block.appendBytes_cons]
    exact feedAll_cons_eq (feed_lineByte p hf hskip notLF stays (by omega)) rest

/-- The block with the line `c :: cs` read from START: the one line of a new batch (R163, R171). -/
def Block.readLine (b : Block) (c : Byte) (cs : List Byte) : Block :=
  { b.newBatch.beginLine c with fsm := .response }.appendBytes cs

theorem Block.line_readLine (b : Block) (c : Byte) (cs : List Byte) : (b.readLine c cs).line = c :: cs :=
  Block.line_appendBytes _ cs

theorem Block.readLine_accLen (b : Block) (c : Byte) (cs : List Byte) : (b.readLine c cs).accLen = (c :: cs).length :=
  Nat.add_comm 1 cs.length

/-- A whole text line from START: the block before its LF, and no emission. -/
theorem feedAll_textLine (p : Params) {c : Byte} {cs : List Byte} {b : Block} (hf : b.fsm = .start)
    (hskip : b.skip = false) (hcr : c ≠ byteCR) (hlf : c ≠ byteLF) (hesc : c ≠ byteESC)
    (text : ∀ x ∈ cs, x ≠ byteLF ∧ (x = byteESC → p.escInResponse = .literal)) (room : 1 + cs.length ≤ p.lineMax) :
    feedAll p (c :: cs) b = (b.readLine c cs, List.replicate (c :: cs).length Emitted.nothing) :=
  feedAll_cons_eq (feed_newLine p hf hcr hlf hesc) (feedAll_lineBytes p cs rfl hskip text room)

/-- The state after a line in terms of `st` (R165). -/
theorem Block.st_eq_ite {b : Block} {more : Prop} [Decidable more] (h : b.fsm = if more then .response else .start) :
    b.st = if more then .response else .start := by
  rw [Block.st, h]
  by_cases holds : more
  · rw [if_pos holds, if_pos holds]
  · rw [if_neg holds, if_neg holds]

/-- Settles O50: the bytes of the line make up the accumulator, and the LF stores it in the first slot of the new
batch. -/
theorem textLineIsDelivered : Obligations.TextLineIsDelivered := by
  intro b c cs hf hskip hcr hlf hesc htext fits text v r
  have line := b.line_readLine c cs
  have lineEnd := (feed_lineEnd Config.params (b := b.readLine c cs) rfl hskip).trans (finishLine_eq _ _)
  rw [line] at lineEnd
  have fed : r = _ := feedAll_append_eq (feedAll_textLine Config.params hf hskip hcr hlf hesc htext fits)
    (feedAll_cons_eq lineEnd rfl)
  clear_value r
  subst fed
  have room : (b.readLine c cs).poolCount < 32 := show 0 < 32 by decide
  have len := b.readLine_accLen c cs
  have copied := Block.poolByte_storeLine_same room (by rw [line, len])
  have length := ((b.readLine c cs).poolLength_storeLine 0).trans (if_pos ⟨room, rfl⟩)
  rw [line] at copied
  rw [len] at length
  refine ⟨rfl, rfl, length, copied, rfl, Block.st_eq_ite rfl, rfl, rfl, rfl, rfl⟩

end Sys2Proof.Machine
end

section
/-! The commands without effect on the block: NOP, the reserved commands, and the read-outs by what their location
holds. -/

namespace Sys2Proof.Machine

/-! ### NOP and the reserved commands -/

/-- Settles O17: the word 0 has op 000 and zeros in the field R71 reserves, and NOP puts out `cmd_err = 0`. -/
theorem nopChangesNothing : Obligations.NopChangesNothing :=
  ⟨fun _ => rfl, fun _ => rfl⟩

/-- No row before the reserved one has op = 111 (R71). -/
theorem decode_of_op111 {w : Cmd} (din : Hdr) (op : w.extractLsb' 0 3 = 7#3) :
    decode w din = .command (.reservedOp111 w) := by
  simp [decode, op]

/-- Settles O18: each of the three reserved commands is `raise CmdError`. -/
theorem reservedCommandsSetCmdErr : Obligations.ReservedCommandsSetCmdErr :=
  ⟨fun _ din op => decode_of_op111 din op, fun _ _ => ⟨rfl, rfl, rfl⟩⟩

/-! ### The locations that hold a value -/

namespace Block

variable {b : Block} {slot idx n : Nat} {line : Memory}

theorem poolByte_of_stored (hs : slot < b.poolCount) (hn : Table.read b.poolLen slot = some n) (hi : idx < n)
    (hl : Table.read b.pool slot = some line) : b.poolByte slot idx = Table.read line idx := by
  simp [poolByte, hs, hn, hi, hl]

theorem poolByte_eq_none_of_poolCount_le (hs : b.poolCount ≤ slot) : b.poolByte slot idx = none :=
  if_neg (Nat.not_lt_of_le hs)

theorem poolByte_eq_none_of_length_le (hn : Table.read b.poolLen slot = some n) (hi : n ≤ idx) :
    b.poolByte slot idx = none := by
  simp [poolByte, hn, Nat.not_lt_of_le hi]

theorem poolLength_of_lt (hs : slot < b.poolCount) : b.poolLength slot = Table.read b.poolLen slot :=
  if_pos hs

theorem poolLength_eq_none_of_le (hs : b.poolCount ≤ slot) : b.poolLength slot = none :=
  if_neg (Nat.not_lt_of_le hs)

theorem escByte_of_lt (hi : idx < b.escLen) : b.escByte idx = Table.read b.escBuf idx :=
  if_pos hi

theorem escByte_eq_none_of_le (hi : b.escLen ≤ idx) : b.escByte idx = none :=
  if_neg (Nat.not_lt_of_le hi)

end Block

/-! ### The answer of a read-out by what its location holds -/

/-- PRD and ERD zero-extend the byte they find. -/
theorem answerRead_byte {v : Option Byte} {x : Byte} (s : State) (h : v = some x) :
    answerRead (v.map fun y => y.setWidth 16) s = .next { s with out := readOut (BitVec.ofNat 16 x.toNat) } :=
  (answerRead_eq_next _ s _).mpr ⟨_, by rw [h, BitVec.ofNat_toNat, Option.map_some], rfl⟩

/-- Every read-out of a location without a value faults alike (R222). -/
theorem answerRead_map_none {α : Type} {v : Option α} (f : α → Half) (s : State) (h : v = none) :
    answerRead (v.map f) s = .fault (.readUnwritten readErrOut) :=
  (answerRead_eq_fault _ s _).mpr ⟨Option.map_eq_none_iff.mpr h, rfl⟩

section
variable {slot : Slot} {idx : Half} {s : State}

theorem exec_prd_of_some {x : Byte} (h : s.block.poolByte slot.toNat idx.toNat = some x) :
    exec (.prd slot idx) s = .next { s with out := readOut (BitVec.ofNat 16 x.toNat) } :=
  answerRead_byte s h

theorem exec_prd_of_none (h : s.block.poolByte slot.toNat idx.toNat = none) :
    exec (.prd slot idx) s = .fault (.readUnwritten readErrOut) :=
  answerRead_map_none _ s h

theorem exec_plen_of_some {n : Nat} (h : s.block.poolLength slot.toNat = some n) :
    exec (.plen slot) s = .next { s with out := readOut (BitVec.ofNat 16 n) } :=
  (exec_plen_eq_next slot s _).mpr ⟨n, h, rfl⟩

theorem exec_plen_of_none (h : s.block.poolLength slot.toNat = none) :
    exec (.plen slot) s = .fault (.readUnwritten readErrOut) :=
  answerRead_map_none _ s h

theorem exec_erd_of_some {x : Byte} (h : s.block.escByte idx.toNat = some x) :
    exec (.erd idx) s = .next { s with out := readOut (BitVec.ofNat 16 x.toNat) } :=
  answerRead_byte s h

theorem exec_erd_of_none (h : s.block.escByte idx.toNat = none) :
    exec (.erd idx) s = .fault (.readUnwritten readErrOut) :=
  answerRead_map_none _ s h

end

/-! ### The statements -/

/-- Settles O55: below both lengths the location holds the line's byte; at or above either it holds none. -/
theorem prdReadsAStoredByte : Obligations.PrdReadsAStoredByte := by
  intro slot idx s
  constructor
  · intro n line x hs hn hi hl hx
    exact exec_prd_of_some ((Block.poolByte_of_stored hs hn hi hl).trans hx)
  · rintro (noSlot | ⟨-, n, hn, noByte⟩)
    · exact exec_prd_of_none (Block.poolByte_eq_none_of_poolCount_le noSlot)
    · exact exec_prd_of_none (Block.poolByte_eq_none_of_length_le hn noByte)

/-- Settles O56: the slots below `pool_count` are those with a length. -/
theorem plenReadsALength : Obligations.PlenReadsALength := by
  intro slot s
  constructor
  · intro n hs hn
    exact exec_plen_of_some ((Block.poolLength_of_lt hs).trans hn)
  · intro noSlot
    exact exec_plen_of_none (Block.poolLength_eq_none_of_le noSlot)

/-- Settles O57: the escape buffer holds a byte below `esc_len` alone. -/
theorem erdReadsTheEscapeBuffer : Obligations.ErdReadsTheEscapeBuffer := by
  intro idx s
  constructor
  · intro x hi hx
    exact exec_erd_of_some ((Block.escByte_of_lt hi).trans hx)
  · intro noByte
    exact exec_erd_of_none (Block.escByte_eq_none_of_le noByte)

end Sys2Proof.Machine
end

section
/-! The exceptions: the words that raise CmdError, the tags FEED can emit, and what a step refuses, faults at or answers
with `cmd_err`. -/

namespace Sys2Proof

/-! ### The reserved-zero bits of a word -/

/-- The mask of the field of `len` bits from bit `lo`. -/
def fieldMask (lo len : Nat) : Cmd :=
  (BitVec.allOnes len).setWidth 32 <<< lo

theorem getElem_fieldMask (lo len : Nat) {k : Nat} (hk : k < 32) :
    (fieldMask lo len)[k] = decide (lo ≤ k ∧ k - lo < len) := by
  by_cases h : lo ≤ k <;> simp [fieldMask, h, Nat.not_lt.mpr, Nat.not_le.mp]

theorem and_fieldMask_eq_zero_iff (w : Cmd) (lo len : Nat) (fits : lo + len ≤ 32) :
    w &&& fieldMask lo len = 0#32 ↔ w.extractLsb' lo len = 0#len := by
  constructor
  · intro h
    ext k hk
    have inside : lo + k < 32 := by omega
    have bit := congrArg (fun m : Cmd => m[lo + k]) h
    simpa [getElem_fieldMask, hk, BitVec.getLsbD_eq_getElem inside] using bit
  · intro h
    ext k hk
    by_cases inField : lo ≤ k ∧ k - lo < len
    · have bit := congrArg (fun m : BitVec len => m.getLsbD (k - lo)) h
      simpa [getElem_fieldMask, inField, hk] using bit
    · simp [getElem_fieldMask, inField]

/-- The same of two fields together. -/
theorem and_fieldMasks_eq_zero_iff (w : Cmd) (lo len lo' len' : Nat) (fits : lo + len ≤ 32)
    (fits' : lo' + len' ≤ 32) :
    w &&& (fieldMask lo len ||| fieldMask lo' len') = 0#32 ↔
      w.extractLsb' lo len = 0#len ∧ w.extractLsb' lo' len' = 0#len' := by
  rw [BitVec.and_or_distrib_left, BitVec.or_eq_zero_iff, and_fieldMask_eq_zero_iff w _ _ fits,
    and_fieldMask_eq_zero_iff w _ _ fits']

section

variable (w : Cmd)

/-! The masks of R71, row by row, are those of the fields that the decoder tests. -/

theorem and_nopMask_eq_zero_iff : w &&& 0xFFFFFFF8#32 = 0#32 ↔ w.extractLsb' 3 29 = 0#29 :=
  and_fieldMask_eq_zero_iff w 3 29 (by decide)

theorem and_feedMask_eq_zero_iff :
    w &&& 0xFFFF00F8#32 = 0#32 ↔ w.extractLsb' 3 5 = 0#5 ∧ w.extractLsb' 16 16 = 0#16 :=
  and_fieldMasks_eq_zero_iff w 3 5 16 16 (by decide) (by decide)

theorem and_codecMask_eq_zero_iff : w &&& 0x0000FFE0#32 = 0#32 ↔ w.extractLsb' 5 11 = 0#11 :=
  and_fieldMask_eq_zero_iff w 5 11 (by decide)

theorem and_prdMask_eq_zero_iff :
    w &&& 0x0000E0F8#32 = 0#32 ↔ w.extractLsb' 3 5 = 0#5 ∧ w.extractLsb' 13 3 = 0#3 :=
  and_fieldMasks_eq_zero_iff w 3 5 13 3 (by decide) (by decide)

theorem and_plenMask_eq_zero_iff :
    w &&& 0xFFFFE0F8#32 = 0#32 ↔ w.extractLsb' 3 5 = 0#5 ∧ w.extractLsb' 13 19 = 0#19 :=
  and_fieldMasks_eq_zero_iff w 3 5 13 19 (by decide) (by decide)

theorem and_erdMask_eq_zero_iff : w &&& 0x0000FFF8#32 = 0#32 ↔ w.extractLsb' 3 13 = 0#13 :=
  and_fieldMask_eq_zero_iff w 3 13 (by decide)

end

/-! ### The words that raise CmdError -/

/-- The three reserved commands. -/
@[simp] def Instr.isReserved : Instr → Bool
  | .reservedOp111 _ | .reservedHencKsel11 _ | .reservedHvalMode11 _ => true
  | _ => false

/-- What the decoder answers for a word that raises CmdError: a reserved command, or a rejection (R241). -/
def Decoded.raisesCmdErr : Decoded → Bool
  | .command i => i.isReserved
  | .reject _ => true

@[simp] theorem Decoded.raisesCmdErr_command (i : Instr) :
    (Decoded.command i).raisesCmdErr = i.isReserved := rfl

@[simp] theorem Decoded.raisesCmdErr_when (zero : Bool) (m : String) (i : Instr) :
    (Decoded.when zero m i).raisesCmdErr = (!zero || i.isReserved) := by
  cases zero <;> rfl

/-- The words that raise CmdError, by the row of R71 that `op` selects. -/
theorem decode_raisesCmdErr_iff (w : Cmd) (din : Hdr) :
    (decode w din).raisesCmdErr = true ↔
      (w.extractLsb' 0 3 = 7#3 ∨
       (w.extractLsb' 0 3 = 2#3 ∧ w.extractLsb' 3 2 = 3#2) ∨
       (w.extractLsb' 0 3 = 3#3 ∧ w.extractLsb' 3 2 = 3#2) ∨
       Machine.reservedZero w ≠ 0) := by
  obtain op | op | op | op | op | op | op | op := op_cases (w.extractLsb' 0 3)
  · simp [decode, Machine.reservedZero, op, and_nopMask_eq_zero_iff]
  · simp [decode, Machine.reservedZero, op, and_feedMask_eq_zero_iff, imp_iff_not_or]
  · obtain ksel | ksel | ksel | ksel := sel_cases (w.extractLsb' 3 2)
    all_goals simp [decode, decodeHenc, Machine.reservedZero, op, ksel, and_codecMask_eq_zero_iff]
  · obtain mode | mode | mode | mode := sel_cases (w.extractLsb' 3 2)
    all_goals simp [decode, decodeHval, Machine.reservedZero, op, mode, and_codecMask_eq_zero_iff]
  · simp [decode, Machine.reservedZero, op, and_prdMask_eq_zero_iff, imp_iff_not_or]
  · simp [decode, Machine.reservedZero, op, and_plenMask_eq_zero_iff, imp_iff_not_or]
  · simp [decode, Machine.reservedZero, op, and_erdMask_eq_zero_iff]
  · simp [decode, op]

end Sys2Proof

namespace Sys2Proof.Machine

/-! ### FEED -/

/-- Settles O33, by FEED's equation. -/
theorem feedAlwaysCompletes : Obligations.FeedAlwaysCompletes :=
  fun v s => ⟨_, _, _, _, exec_feed v s⟩

/-- FEED emits no tag above BUF_ERROR: a line ends with a tag of the classifier (R141), and every other emission
names its own. -/
theorem feed_tag_code_le (p : Params) (v : Byte) (b : Block) : (feed p v b).2.tag.code.toNat ≤ 18 := by
  have bulk : ∀ t : Tag, t = .bulkDataRx ∨ t = .udpBulkDataRx → t.code.toNat ≤ 18 := by
    rintro t (rfl | rfl) <;> decide
  have answer : ∀ t : Tag, t = .none ∨ t = .escOk ∨ t = .escFail → t.code.toNat ≤ 18 := by
    rintro t (rfl | rfl | rfl) <;> decide
  apply feed_rule p v b fun r => r.2.tag.code.toNat ≤ 18
  case lineEnd =>
    intro _ _ _
    obtain ⟨-, le⟩ := classifierTagsAreOneToTwelve p b.line
    rw [finishLine_eq]
    exact le.trans (by decide)
  case answered => exact fun t _ ht => answer t ht
  case empty => exact fun t ht _ => bulk t ht
  case lastByte | payload => exact fun t ht _ _ => bulk t ht
  all_goals intros; simp [Emitted.nothing, Emitted.of, Tag.code]

/-- A command puts out no tag above BUF_ERROR: FEED alone puts out a tag (R80). -/
theorem exec_tag_code_le {i : Instr} {s t : State} {tag : Tag} (h : exec i s = .next t) (emits : t.out.tag = some tag) :
    tag.code.toNat ≤ 18 := by
  have outputs := commandsDefineTheirOutputs i s t h
  cases i with
  | feed v =>
    rw [exec_feed] at h
    cases h
    cases emits
    exact feed_tag_code_le _ v s.block
  | nop | reservedOp111 | reservedHencKsel11 | reservedHvalMode11 => rw [outputs] at emits; cases emits
  | hencWreq | hencRreq | hencDfh => obtain ⟨_, out⟩ | out := outputs <;> rw [out] at emits <;> cases emits
  | hvalWrsp | hvalRrsp | hvalDth => obtain ⟨_, _, _, _, _, _, out⟩ := outputs; rw [out] at emits; cases emits
  | prd | plen | erd => obtain ⟨_, out⟩ := outputs; rw [out] at emits; cases emits

theorem step_tag_code_le {s t : State} {tag : Tag} (h : step s = .next t) (emits : t.out.tag = some tag) :
    tag.code.toNat ≤ 18 := by
  obtain ⟨i, rest, -, ⟨-, rfl⟩ | ⟨-, -, ⟨c, -, hc⟩ | ⟨e, -, rfl⟩⟩⟩ := step_next h
  · cases emits
  · exact exec_tag_code_le hc emits
  · cases emits

/-- Settles O16: the three tags have the codes above those a step can emit. -/
theorem neverEmitsTransportTags : Obligations.NeverEmitsTransportTags := by
  refine ⟨rfl, rfl, rfl, fun s t h => ⟨fun emits => ?_, fun emits => ?_, fun emits => ?_⟩⟩
  all_goals exact absurd (step_tag_code_le h emits) (by decide)

/-! ### What a step answers -/

theorem step_reject {s : State} {i : Input} {rest : List Input} {e : DecodeError} (hs : s.started = true)
    (hi : s.inputs = i :: rest) (hr : i.rst = false) (hd : decode i.cmd i.din = .reject e) :
    step s = .next (State.raiseCmdError { s with inputs := rest }) := by
  simp only [step, takeInput_command hi hr hs, hd]

/-- What a step answers, by the host's next input (R70, R270, R273). -/
theorem step_cases (s : State) :
    (s.inputs = [] ∧ step s = .refused .noCommand) ∨
    ∃ i rest, s.inputs = i :: rest ∧
      ((i.rst = true ∧ step s = .next (State.resetStep { s with inputs := rest })) ∨
       (s.started = false ∧ step s = .refused .beforeReset) ∨
       (∃ c, decode i.cmd i.din = .command c ∧ step s = exec c { s with inputs := rest }) ∨
       step s = .next (State.raiseCmdError { s with inputs := rest })) := by
  cases hi : s.inputs with
  | nil => exact .inl ⟨rfl, noInputIsRefused s hi⟩
  | cons i rest =>
    refine .inr ⟨i, rest, rfl, ?_⟩
    cases hr : i.rst with
    | true => exact .inl ⟨rfl, step_reset hi hr⟩
    | false =>
      cases hs : s.started with
      | false => exact .inr (.inl ⟨rfl, by rw [step, takeInput_beforeReset hi hr hs]⟩)
      | true =>
        rw [← hs]
        cases hd : decode i.cmd i.din with
        | command c => exact .inr (.inr (.inl ⟨c, rfl, stepRunsTheDecodedCommand s i rest c hs hi hr hd⟩))
        | reject e => exact .inr (.inr (.inr (step_reject hs hi hr hd)))

/-! ### Refusals -/

theorem exec_ne_refused (i : Instr) (s : State) (r : Refusal) : exec i s ≠ .refused r := by
  cases i with
  | prd | plen | erd => exact answerRead_ne_refused _ s r
  | nop | feed | hencWreq | hencRreq | hencDfh | hvalWrsp | hvalRrsp | hvalDth | reservedOp111 | reservedHencKsel11
  | reservedHvalMode11 => nofun

/-- Settles O10: `takeInput` alone refuses, and only before the first reset or without an input. -/
theorem startedMachineIsNeverRefused : Obligations.StartedMachineIsNeverRefused := by
  intro s r hs hi refused
  obtain ⟨none, -⟩ | ⟨i, rest, -, ⟨-, h⟩ | ⟨unstarted, -⟩ | ⟨c, -, h⟩ | h⟩ := step_cases s
  · exact hi none
  · cases h.symm.trans refused
  · cases hs.symm.trans unstarted
  · exact exec_ne_refused c _ r (h.symm.trans refused)
  · cases h.symm.trans refused

/-! ### Faults -/

/-- The read-outs of a location that holds no value (R222). -/
def ReadsUnwritten (i : Instr) (b : Block) : Prop :=
  (∃ slot idx, i = .prd slot idx ∧ b.poolByte slot.toNat idx.toNat = none) ∨
  (∃ slot, i = .plen slot ∧ b.poolLength slot.toNat = none) ∨
  (∃ idx, i = .erd idx ∧ b.escByte idx.toNat = none)

theorem answerRead_map_eq_fault {α : Type} {v : Option α} {f : α → Half} {s : State} {r : Fault}
    (h : answerRead (v.map f) s = .fault r) : v = none ∧ r = .readUnwritten readErrOut := by
  obtain ⟨hv, hr⟩ := (answerRead_eq_fault _ s r).mp h
  exact ⟨Option.map_eq_none_iff.mp hv, hr⟩

/-- A command faults only as a read-out of a location that holds no value (R244). -/
theorem exec_fault {i : Instr} {s : State} {f : Fault} (h : exec i s = .fault f) :
    f = .readUnwritten readErrOut ∧ ReadsUnwritten i s.block := by
  cases i with
  | prd slot idx =>
    obtain ⟨unwritten, answer⟩ := answerRead_map_eq_fault h
    exact ⟨answer, .inl ⟨slot, idx, rfl, unwritten⟩⟩
  | plen slot =>
    obtain ⟨unwritten, answer⟩ := answerRead_map_eq_fault h
    exact ⟨answer, .inr (.inl ⟨slot, rfl, unwritten⟩)⟩
  | erd idx =>
    obtain ⟨unwritten, answer⟩ := answerRead_map_eq_fault h
    exact ⟨answer, .inr (.inr ⟨idx, rfl, unwritten⟩)⟩
  | nop | feed | hencWreq | hencRreq | hencDfh | hvalWrsp | hvalRrsp | hvalDth | reservedOp111 | reservedHencKsel11
  | reservedHvalMode11 => cases h

/-- A step faults only in the command it performs. -/
theorem step_fault {s : State} {f : Fault} (h : step s = .fault f) :
    ∃ i rest c, s.inputs = i :: rest ∧ decode i.cmd i.din = .command c ∧
      exec c { s with inputs := rest } = .fault f := by
  obtain ⟨-, h'⟩ | ⟨i, rest, hi, ⟨-, h'⟩ | ⟨-, h'⟩ | ⟨c, hd, h'⟩ | h'⟩ := step_cases s
  case inr.inr.inr.inl => exact ⟨i, rest, c, hi, hd, h'.symm.trans h⟩
  all_goals cases h'.symm.trans h

/-- A run keeps the fault of its first step (R244). -/
theorem run_succ_of_fault {s : State} {f : Fault} (k : Nat) (h : step s = .fault f) :
    Sys2Proof.core.run (k + 1) s = .fault f := by
  simp only [Host.Core.run, show Sys2Proof.core.step s = .fault f from h]

/-- Settles O11: the three read-outs fault where their location holds no value, and nothing else in a step does. -/
theorem faultsAreUnwrittenReads : Obligations.FaultsAreUnwrittenReads := by
  refine ⟨fun _ _ _ => exec_prd_of_none, fun _ _ => exec_plen_of_none, fun _ _ => exec_erd_of_none, fun s f h => ?_⟩
  obtain ⟨i, rest, c, hi, hd, hc⟩ := step_fault h
  obtain ⟨answer, unwritten⟩ := exec_fault hc
  exact ⟨answer, fun k => run_succ_of_fault k h, i, rest, c, hi, hd, unwritten⟩

/-! ### Command errors -/

/-- The reserved commands, and no others, set `cmd_err` (R80, R241). -/
theorem exec_cmdErr {i : Instr} {s t : State} (h : exec i s = .next t) : t.out.cmdErr = i.isReserved := by
  have outputs := commandsDefineTheirOutputs i s t h
  cases i with
  | nop | reservedOp111 | reservedHencKsel11 | reservedHvalMode11 => rw [outputs]; rfl
  | feed => obtain ⟨_, _, _, out⟩ := outputs; rw [out]; rfl
  | hencWreq | hencRreq | hencDfh => obtain ⟨_, out⟩ | out := outputs <;> rw [out] <;> rfl
  | hvalWrsp | hvalRrsp | hvalDth => obtain ⟨_, _, _, _, _, _, out⟩ := outputs; rw [out]; rfl
  | prd | plen | erd => obtain ⟨_, out⟩ := outputs; rw [out]; rfl

theorem exec_eq_raiseCmdError_iff (i : Instr) (s : State) :
    exec i s = .next s.raiseCmdError ↔ i.isReserved = true := by
  constructor
  · intro h
    exact (exec_cmdErr h).symm
  · intro h
    cases i with
    | reservedOp111 | reservedHencKsel11 | reservedHvalMode11 => rfl
    | nop | feed | hencWreq | hencRreq | hencDfh | hvalWrsp | hvalRrsp | hvalDth | prd | plen | erd => cases h

/-- Settles O3: the step raises CmdError where the decoder answers a reserved command or a rejection, and the masks of
R71 name the words for which it does. -/
theorem commandErrorExactlyWhenReserved : Obligations.CommandErrorExactlyWhenReserved := by
  intro s inp rest hs hi hr
  rw [← decode_raisesCmdErr_iff inp.cmd inp.din]
  cases hd : decode inp.cmd inp.din with
  | command i =>
    rw [stepRunsTheDecodedCommand s inp rest i hs hi hr hd]
    exact exec_eq_raiseCmdError_iff i _
  | reject e =>
    rw [step_reject hs hi hr hd]
    exact ⟨fun _ => rfl, fun _ => rfl⟩

end Sys2Proof.Machine
end

section
/-! The reset rules: a command before the first reset (R273). -/

namespace Sys2Proof.Machine

/-- Settles O8: `takeInput` refuses the input before the decoder reads it (R273, D39). -/
theorem commandBeforeResetIsRefused : Obligations.CommandBeforeResetIsRefused := by
  intro s inp rest notStarted hi hr
  rw [step, takeInput_beforeReset hi hr notStarted]

end Sys2Proof.Machine
end
